-- ==== Sys2Proof/Word.lean ====
section
/-! DEFINITION. The word types of AX25BEACON-CORE (spec 00_scope.md section 6.1, 10_state.md). -/

namespace Sys2Proof

/-- An octet. -/
abbrev Byte := BitVec 8

/-- A 16-bit register (`PLEN`, `FLEN`, `CFG_AMPL`, the CRC register). -/
abbrev Half := BitVec 16

/-- A 32-bit register (the rates, the tones, `B91_VALUE`, `STATUS`). -/
abbrev Word := BitVec 32

/-- The widest register (`ADDR_*`), and so the width of what a register read returns. -/
abbrev DWord := BitVec 64

/-- One PCM sample: a 16-bit two's-complement integer (R73). -/
abbrev Sample := BitVec 16

end Sys2Proof
end

