-- ==== Sys2Proof/Config.lean ====
section
/-! DEFINITION. The buffer spaces (R41) and the values the spec leaves open, as constants without a body. -/

namespace Sys2Proof

/-- The octet-addressed spaces of R41. -/
inductive BufSpace where
  | pbuf
  | fbuf
  | b91out
  deriving DecidableEq, Repr

/-- What an octet of a buffer holds that nothing has written since power-up or reset (R20, R21, R22; U1 to U3 "any
value"). It depends on the power-up (`epoch`), the space and the index, so that reading it twice gives the same octet
(R45). DESIGN CHOICE, log 5: safe. -/
opaque Config.unwrittenOctet (epoch : Nat) (space : BufSpace) (index : Nat) : Byte

/-- `freq` from TRANSMIT acceptance to the first symbol start: "undefined until the first symbol start" (R27). Log 7:
safe. -/
opaque Config.freqBeforeFirstSymbol (draw : Nat) : Word

end Sys2Proof
end

