-- ==== Sys2Proof/Machine/State.lean ====
section
/-! DEFINITION. The state of AX25BEACON-CORE (10_state.md), what can stop a step, and the state after reset. -/

namespace Sys2Proof.Machine

/-- A buffer: (index, octet) pairs, indices strictly rising (`Memory.wf`); an index that is not listed holds no value yet
(log 5). -/
abbrev Memory := List Host.Cell

/-- One Address (R11): the fields of an `ADDR_*` register. Bits 63:57 have no storage: they read 0 and ignore writes. -/
structure AddrReg where
  /-- Six character octets, character `i` at bits `8i+7 : 8i`. -/
  call : BitVec 48
  /-- Number of characters supplied. -/
  clen : BitVec 4
  /-- Secondary station identifier. -/
  ssid : BitVec 4
  /-- Has-been-repeated flag. -/
  h : BitVec 1
  deriving DecidableEq, Repr

/-- The codes of `STATUS.ERR` that have a name (R200). -/
inductive ErrorCode where
  | none
  | frameTooLarge
  | badAddr
  | sinkFail
  /-- Kept in the numbering, never written (R204). -/
  | outOfMemory
  | badConfig
  | badCmd
  deriving DecidableEq, Repr

/-- The registers of R46. -/
inductive Reg where
  | cmd
  | status
  | cfgSampleRate
  | cfgBitRate
  | cfgMark
  | cfgSpace
  | cfgPreamble
  | cfgRest
  | cfgAmpl
  | addrDst
  | addrSrc
  | addrPath1
  | addrPath2
  | npath
  | plen
  | flen
  | b91Value
  | b91Width
  deriving DecidableEq, Repr

/-- What comes from outside the block between two of its steps (R40, R209, R230), and the block's own turn (log 2). -/
inductive Event where
  /-- `HostWrite(REG, number, value)`; the value may be wider than the register (R19). -/
  | regWrite (number value : Nat)
  /-- `HostRead(REG, number)`. -/
  | regRead (number : Nat)
  /-- `HostWrite(PBUF, index, octet)`. -/
  | pbufWrite (index : Nat) (octet : Byte)
  /-- `HostRead(space, index)`. -/
  | bufRead (space : BufSpace) (index : Nat)
  /-- The reset event. -/
  | reset
  /-- The block takes the step that is enabled, if one is. -/
  | blockTurn
  deriving DecidableEq, Repr

/-- The sink's answer to a chunk (R181). -/
inductive SinkAnswer where
  | ok
  | fail
  deriving DecidableEq, Repr

/-- What the sequencer holds while `seq = STREAM` (R27), under the spec's names. -/
structure InFlight where
  /-- The whole stuffed stream of this transmission. -/
  T : List Bool
  /-- Symbols started. -/
  k : Nat
  /-- Samples of the current symbol still to produce. -/
  j : Nat
  /-- Sample-timing remainder. -/
  tacc : Nat
  /-- Tone frequency of the current symbol. -/
  freq : Word
  /-- Samples produced and not yet offered to the sink. -/
  cbuf : List Sample
  deriving DecidableEq, Repr

/-- The sequencer state (R12); the in-flight items exist only in STREAM (U4, log 13). -/
inductive Seq where
  | idle
  | stream (f : InFlight)
  deriving DecidableEq, Repr

/-- All the state R10 lists, then the model's own fields: the counters of the free values, the parameter `CHUNK_MAX`, the
inputs still to come and the record of what left the block. -/
structure State where
  /-- `seq` and the in-flight items (R12, R27). -/
  seq : Seq
  /-- `STATUS.DONE` (R17). -/
  done : Bool
  /-- `STATUS.ERR` (R17, R200). -/
  err : ErrorCode
  /-- `STATUS.EINFO` (R17, R201). -/
  einfo : BitVec 3
  /-- `STATUS.WARN_RATE` (R17, R158). -/
  warnRate : Bool
  /-- `STATUS.OVERRUN` (R17, R211). -/
  overrun : Bool
  /-- `CFG_SAMPLERATE` (R18). -/
  sampleRate : Word
  /-- `CFG_BITRATE` (R18). -/
  bitRate : Word
  /-- `CFG_MARK` (R18). -/
  mark : Word
  /-- `CFG_SPACE` (R18). -/
  space : Word
  /-- `CFG_PREAMBLE` (R18). -/
  preamble : Half
  /-- `CFG_REST` (R18). -/
  rest : Half
  /-- `CFG_AMPL` (R18). -/
  ampl : Half
  /-- `ADDR_DST` (R11). -/
  addrDst : AddrReg
  /-- `ADDR_SRC` (R11). -/
  addrSrc : AddrReg
  /-- `ADDR_PATH1` (R11). -/
  addrPath1 : AddrReg
  /-- `ADDR_PATH2` (R11). -/
  addrPath2 : AddrReg
  /-- `NPATH` (R13). -/
  npath : BitVec 2
  /-- `PLEN` (R13). -/
  plen : Half
  /-- `FLEN` (R15). -/
  flen : Half
  /-- `B91_VALUE` (R14). -/
  b91Value : Word
  /-- `B91_WIDTH` (R14). -/
  b91Width : BitVec 4
  /-- `PBUF` (R20). -/
  pbuf : Memory
  /-- `FBUF` (R21). -/
  fbuf : Memory
  /-- `B91OUT` (R22). -/
  b91out : Memory
  /-- `phase`, in turns (R24). -/
  phase : Rat
  /-- `level`: true is 1, "high" (R25). -/
  level : Bool
  /-- The model's: which power-up the never-written octets belong to (log 5, log 6). -/
  epoch : Nat
  /-- The model's: how many free values TRANSMIT has drawn (log 7). -/
  draws : Nat
  /-- The model's: the parameter `CHUNK_MAX`, less one, so that every value of the field is a legal one (log 4). -/
  chunkMaxLess1 : Nat
  /-- The model's: what comes from outside, next first (log 2). -/
  inbox : List Event
  /-- The model's: the sink's coming answers, next first (log 3). -/
  sinkAnswers : List SinkAnswer
  /-- The model's: every chunk answered so far with its answer, oldest first (log 10). -/
  sinkLog : List (List Sample × SinkAnswer)
  /-- The model's: what the host's reads returned, oldest first, zero-extended (log 10). -/
  reads : List DWord
  deriving DecidableEq, Repr

/-- No rule of the spec stops the machine: an error is recorded in `STATUS` and the block goes on (R205, R211), so there
is no fault, and no constructor (log 15). Nobody raises one; safe. -/
inductive Fault where
  deriving DecidableEq, Repr

/-- Why an instruction has no meaning. -/
inductive Refusal where
  /-- Raised by an arm of `exec` whose instruction is not modelled yet: no arm is left so. Safe. -/
  | notModelled (mnemonic : String)
  deriving DecidableEq, Repr

/-- An address register that is all zero (R11: so `CLEN = 0`, malformed until written). -/
def AddrReg.zero : AddrReg := { call := 0, clen := 0, ssid := 0, h := 0 }

/-- The machine right after reset (R230, the table of 10_state.md section 8). The model's own fields: log 4, log 18. -/
def State.reset : State where
  seq := .idle
  done := false
  err := .none
  einfo := 0
  warnRate := false
  overrun := false
  sampleRate := 48000
  bitRate := 1200
  mark := 1200
  space := 2200
  preamble := 25
  rest := 5
  ampl := 32767
  addrDst := .zero
  addrSrc := .zero
  addrPath1 := .zero
  addrPath2 := .zero
  npath := 0
  plen := 0
  flen := 0
  b91Value := 0
  b91Width := 0
  pbuf := []
  fbuf := []
  b91out := []
  phase := 0
  level := true
  epoch := 0
  draws := 0
  chunkMaxLess1 := 4095
  inbox := []
  sinkAnswers := []
  sinkLog := []
  reads := []

end Sys2Proof.Machine
end

