-- ==== Sys2Proof/Machine/Flags.lean ====
section
/-! DEFINITION. `STATUS`: its fields, what sets and clears them, and its value (R17, R200). -/

namespace Sys2Proof.Machine

/-- `STATUS.BUSY`: 1 exactly while `seq = STREAM` (R17). -/
def State.busy (s : State) : Bool :=
  match s.seq with
  | .idle => false
  | .stream _ => true

/-- The number of an error (R200). -/
def ErrorCode.code : ErrorCode → BitVec 4
  | .none => 0
  | .frameTooLarge => 1
  | .badAddr => 2
  | .sinkFail => 3
  | .outOfMemory => 4
  | .badConfig => 5
  | .badCmd => 6

/-- The value of `STATUS`: bits 31:13 and 3:2 read 0 (R17). -/
def State.statusWord (s : State) : Word :=
  0#19 ++ BitVec.ofBool s.overrun ++ BitVec.ofBool s.warnRate ++ s.einfo ++ s.err.code ++ 0#2 ++ BitVec.ofBool s.done ++
    BitVec.ofBool s.busy

/-- Completion: `STATUS.DONE <- 1` (R17). -/
def State.markDone (s : State) : State := { s with done := true }

/-- A host write while busy: `STATUS.OVERRUN <- 1`, sticky (R48, R211). -/
def State.markOverrun (s : State) : State := { s with overrun := true }

/-- The rate warning of an accepted TRANSMIT (R158): the rates are not integrally divisible. -/
def State.rateWarning (s : State) : Bool := s.sampleRate.toNat % s.bitRate.toNat != 0

end Sys2Proof.Machine
end

