-- ==== Sys2Proof/Machine/Operands.lean ====
section
/-! DEFINITION. The operand registers: the fields of an address register and the shape of the descriptor (R11, R13,
R106). -/

namespace Sys2Proof.Machine

/-- The 64-bit value of an address register (R11); bits 63:57 are 0 (R19). -/
def AddrReg.toWord (a : AddrReg) : DWord := 0#7 ++ a.h ++ a.ssid ++ a.clen ++ a.call

/-- The fields a 64-bit value gives an address register; bits 63:57 are ignored (R19). -/
def AddrReg.ofWord (v : DWord) : AddrReg where
  call := v.extractLsb' 0 48
  clen := v.extractLsb' 48 4
  ssid := v.extractLsb' 52 4
  h := v.extractLsb' 56 1

/-- `ADDR_DST` and `ADDR_SRC` have `H` hardwired 0 (R11). -/
def AddrReg.withoutH (a : AddrReg) : AddrReg := { a with h := 0 }

/-- Character `i` of the callsign: `CALL` bits `8i+7 : 8i` (R11). -/
def AddrReg.char (a : AddrReg) (i : Nat) : Byte := a.call.extractLsb' (8 * i) 8

/-- A malformed address: `CLEN = 0` or `CLEN > 6` (R106). -/
def AddrReg.malformed (a : AddrReg) : Bool := a.clen == 0 || 6 < a.clen.toNat

/-- `PAYLOAD_MAX` (00_scope.md section 4). -/
def payloadMax : Nat := 256

/-- `CHUNK_MAX`, an integer of at least 1 (R180; log 4). -/
def State.chunkMax (s : State) : Nat := s.chunkMaxLess1 + 1

end Sys2Proof.Machine
end

