-- ==== Sys2Proof/Machine/Ops.lean ====
section
/-! DEFINITION. The operations over buffers and registers (20_memory.md), and taking an error and leaving it
(60_exceptions.md). -/

namespace Sys2Proof.Machine

/-! ## Buffers -/

/-- The octet listed at an index. -/
def Memory.read : Memory → Nat → Option Byte
  | [], _ => none
  | (a, b) :: m, i => if a = i then some b else Memory.read m i

/-- Writing one octet keeps the indices rising. -/
def Memory.write : Memory → Nat → Byte → Memory
  | [], i, v => [(i, v)]
  | (a, b) :: m, i, v =>
    if i < a then (i, v) :: (a, b) :: m
    else if i = a then (i, v) :: m
    else (a, b) :: Memory.write m i v

/-- `MemWrite(space, addr, n, v)` of 00_scope.md section 6.2: octets in increasing index order (R51). -/
def Memory.writeList : Memory → Nat → List Byte → Memory
  | m, _, [] => m
  | m, i, b :: bs => Memory.writeList (Memory.write m i b) (i + 1) bs

/-- The canonical form: the listed indices rise strictly, from `lo` up to below `hi`. -/
def Memory.wfIn (lo hi : Nat) : Memory → Bool
  | [] => true
  | (a, _) :: m => decide (lo ≤ a ∧ a < hi) && Memory.wfIn (a + 1) hi m

/-- The canonical form of a buffer of `size` octets. -/
def Memory.wf (size : Nat) (m : Memory) : Bool := Memory.wfIn 0 size m

/-- Number of octets of a space (R41). -/
def bufSize : BufSpace → Nat
  | .pbuf => 256
  | .fbuf => 288
  | .b91out => 15

/-- The contents of a space. -/
def State.buf (s : State) : BufSpace → Memory
  | .pbuf => s.pbuf
  | .fbuf => s.fbuf
  | .b91out => s.b91out

/-- One octet of a space: an index outside it reads 0 (R43), an octet nothing has written is a free value (log 5). -/
def State.octet (s : State) (space : BufSpace) (i : Nat) : Byte :=
  if i < bufSize space then ((s.buf space).read i).getD (Config.unwrittenOctet s.epoch space i) else 0

/-- `MemRead(space, 0, n)` of 00_scope.md section 6.2. -/
def State.octets (s : State) (space : BufSpace) (n : Nat) : List Byte := (List.range n).map (s.octet space)

/-- `PBUF[i] <- b`; an index outside the buffer ignores the write (R43). -/
def State.writePbuf (s : State) (i : Nat) (b : Byte) : State :=
  if i < bufSize .pbuf then { s with pbuf := s.pbuf.write i b } else s

/-! ## Registers -/

/-- The register numbers of R46; every other number is unimplemented (R19). -/
def regOfNumber (n : Nat) : Option Reg :=
  match n with
  | 0x00 => some .cmd
  | 0x01 => some .status
  | 0x02 => some .cfgSampleRate
  | 0x03 => some .cfgBitRate
  | 0x04 => some .cfgMark
  | 0x05 => some .cfgSpace
  | 0x06 => some .cfgPreamble
  | 0x07 => some .cfgRest
  | 0x08 => some .cfgAmpl
  | 0x10 => some .addrDst
  | 0x11 => some .addrSrc
  | 0x12 => some .addrPath1
  | 0x13 => some .addrPath2
  | 0x14 => some .npath
  | 0x15 => some .plen
  | 0x16 => some .flen
  | 0x18 => some .b91Value
  | 0x19 => some .b91Width
  | _ => none

/-- The value of a register, zero-extended (R46): `CMD` reads 0 (R16), `H` of `ADDR_DST` and `ADDR_SRC` is hardwired 0
(R11). -/
def State.readReg (s : State) : Reg → DWord
  | .cmd => 0
  | .status => s.statusWord.zeroExtend 64
  | .cfgSampleRate => s.sampleRate.zeroExtend 64
  | .cfgBitRate => s.bitRate.zeroExtend 64
  | .cfgMark => s.mark.zeroExtend 64
  | .cfgSpace => s.space.zeroExtend 64
  | .cfgPreamble => s.preamble.zeroExtend 64
  | .cfgRest => s.rest.zeroExtend 64
  | .cfgAmpl => s.ampl.zeroExtend 64
  | .addrDst => s.addrDst.withoutH.toWord
  | .addrSrc => s.addrSrc.withoutH.toWord
  | .addrPath1 => s.addrPath1.toWord
  | .addrPath2 => s.addrPath2.toWord
  | .npath => s.npath.zeroExtend 64
  | .plen => s.plen.zeroExtend 64
  | .flen => s.flen.zeroExtend 64
  | .b91Value => s.b91Value.zeroExtend 64
  | .b91Width => s.b91Width.zeroExtend 64

/-- What a register stores of a written value: its low bits (R19). A read-only register ignores the write (R46); a write
of `CMD` issues a command, which is no storage (R16), so it stores nothing here. -/
def State.writeReg (s : State) (r : Reg) (v : Nat) : State :=
  match r with
  | .cmd => s
  | .status => s
  | .cfgSampleRate => { s with sampleRate := BitVec.ofNat 32 v }
  | .cfgBitRate => { s with bitRate := BitVec.ofNat 32 v }
  | .cfgMark => { s with mark := BitVec.ofNat 32 v }
  | .cfgSpace => { s with space := BitVec.ofNat 32 v }
  | .cfgPreamble => { s with preamble := BitVec.ofNat 16 v }
  | .cfgRest => { s with rest := BitVec.ofNat 16 v }
  | .cfgAmpl => { s with ampl := BitVec.ofNat 16 v }
  | .addrDst => { s with addrDst := (AddrReg.ofWord (BitVec.ofNat 64 v)).withoutH }
  | .addrSrc => { s with addrSrc := (AddrReg.ofWord (BitVec.ofNat 64 v)).withoutH }
  | .addrPath1 => { s with addrPath1 := AddrReg.ofWord (BitVec.ofNat 64 v) }
  | .addrPath2 => { s with addrPath2 := AddrReg.ofWord (BitVec.ofNat 64 v) }
  | .npath => { s with npath := BitVec.ofNat 2 v }
  | .plen => { s with plen := BitVec.ofNat 16 v }
  | .flen => s
  | .b91Value => { s with b91Value := BitVec.ofNat 32 v }
  | .b91Width => { s with b91Width := BitVec.ofNat 4 v }

/-! ## Taking an error, and leaving it -/

/-- `raise E(info)` (R205): the code and the operand are recorded, the block is idle (so `BUSY` reads 0), `DONE` stays as
it is, nothing else changes. There is no handler to go to. -/
def State.raise (s : State) (e : ErrorCode) (info : BitVec 3) : State := { s with err := e, einfo := info, seq := .idle }

/-- What stands in for a return (R207): the next write of `CMD` while idle clears `DONE`, `ERR`, `EINFO` and `WARN_RATE`
(R61). -/
def State.clearCommandStatus (s : State) : State :=
  { s with done := false, err := .none, einfo := 0, warnRate := false }

/-- A write of `CMD` (R61): while busy it is no command, it is dropped undecoded and recorded (R48, R62); while idle the
status of the last command is cleared and the command runs. -/
def State.issue (s : State) (command : State → State) : State :=
  if s.busy then s.markOverrun else command s.clearCommandStatus

/-- The value of a host read, recorded for the reader (log 10). No read has a side effect on the block (R45). -/
def State.logRead (s : State) (v : DWord) : State := { s with reads := s.reads ++ [v] }

end Sys2Proof.Machine
end

