-- ==== Sys2Proof/Machine/Base91.lean ====
section
/-! DEFINITION. The base-91 codec and B91ENC (40_base91.md). -/

namespace Sys2Proof.Machine

/-- The character of a base-91 digit (R72). -/
def base91Char (digit : Nat) : Byte := BitVec.ofNat 8 (33 + digit)

/-- `B91(value, width)` by repeated division (R91): `width` characters, most significant first; what is left of the value
is discarded (R92). -/
def base91 (value : Nat) : Nat → List Byte
  | 0 => []
  | width + 1 => base91 (value / 91) width ++ [base91Char (value % 91)]

/-- The operation of B91ENC (R90). -/
def b91encCommand (s : State) : State :=
  { s with b91out := s.b91out.writeList 0 (base91 s.b91Value.toNat s.b91Width.toNat) }.markDone

/-- B91ENC (R90): a write of opcode 0x01 to `CMD`. -/
def execB91enc (s : State) : Host.Outcome State Fault Refusal := .next (s.issue b91encCommand)

end Sys2Proof.Machine
end

