-- ==== Sys2Proof/Syntax.lean ====
section
/-! DEFINITION. The rows of spec/opcode_table.json, one constructor each (30_encoding.md). -/

namespace Sys2Proof

/-- The command words (R60 to R62) and the octet patterns the hardware produces (R64, R65, R68, R70, R72). The latter
are no commands; log 1 says what `exec` makes of them. -/
inductive Instr where
  /-- 0x01, base-91 encode (R90). -/
  | b91enc
  /-- 0x02, validate the descriptor and assemble the frame (R109). -/
  | build
  /-- 0x03, build, then stuff, NRZI-encode, modulate and deliver (R170). -/
  | transmit
  /-- 0x04, reinitialise the modulator state (R171). -/
  | modrst
  /-- Every other opcode (R62): the default row of the decoder. -/
  | illegal (opcode : Byte)
  /-- `CCCCCCC0` (R64). -/
  | dataCallsignOctet (c : BitVec 7)
  /-- `H11SSSSL` (R65). -/
  | dataSsidOctet (h : BitVec 1) (ssid : BitVec 4) (l : BitVec 1)
  /-- The control octet (R68). -/
  | dataCtrlUi
  /-- The PID octet (R68). -/
  | dataPidNol3
  /-- The flag octet (R70). -/
  | dataFlag
  /-- `0DDDDDDD` with `D = 33 + digit` (R72). -/
  | dataB91Char (d : BitVec 7)
  deriving DecidableEq, Repr

end Sys2Proof
end

