-- ==== Sys2Proof/WellFormed.lean ====
section
/-! DEFINITION. Which terms of `Instr` stand for an octet of the hardware. -/

namespace Sys2Proof

/-- An `illegal` opcode is none of the four commands' (R62); a base-91 character is `33 + d` with `d` at most 90 (R72).
Every other field takes every value of its width. -/
def Instr.wf : Instr → Bool
  | .b91enc => true
  | .build => true
  | .transmit => true
  | .modrst => true
  | .illegal op => decide (op = 0x00 ∨ 0x05 ≤ op)
  | .dataCallsignOctet _ => true
  | .dataSsidOctet _ _ _ => true
  | .dataCtrlUi => true
  | .dataPidNol3 => true
  | .dataFlag => true
  | .dataB91Char d => decide (0x21 ≤ d ∧ d ≤ 0x7B)

end Sys2Proof
end

