-- ==== Sys2Proof/Decode.lean ====
section
/-! DEFINITION. Decoding octets (30_encoding.md), and the encoder written from the same tables. -/

namespace Sys2Proof

/-- Where an octet stands: what an octet means depends on it (the octet 0x03 is TRANSMIT in `CMD` and the control octet
in a frame). -/
inductive OctetPlace where
  | command
  | callsign
  | ssid
  | control
  | pid
  | flag
  | base91
  deriving DecidableEq, Repr

/-- Why a decoding is refused. -/
inductive DecodeError where
  /-- There is no octet to decode: a command word is exactly one octet (R60). -/
  | noOctet
  /-- The octet does not fit the pattern of its place. -/
  | notThePattern (place : OctetPlace)
  deriving DecidableEq, Repr

/-- `CTRL_UI` (R68; the number is from general knowledge, G1, log 17). -/
def ctrlUi : Byte := 0x03

/-- `PID_NOL3` (R68; G1, log 17). -/
def pidNol3 : Byte := 0xF0

/-- `FLAG`, binary 01111110 (R70). -/
def flagOctet : Byte := 0x7E

/-- The opcode map of R61; every other opcode is illegal (R62). -/
def decodeCommand (op : Byte) : Instr :=
  if op = 0x01 then .b91enc
  else if op = 0x02 then .build
  else if op = 0x03 then .transmit
  else if op = 0x04 then .modrst
  else .illegal op

/-- The command decoder over any octets: one command word is one octet (R60). -/
def decode : List Byte → Except DecodeError (Instr × List Byte)
  | [] => .error .noOctet
  | op :: rest => .ok (decodeCommand op, rest)

/-- What an octet is at a given place of a command, a frame, the stream or a base-91 result (R61, R64, R65, R68, R70,
R72). -/
def decodeAt (place : OctetPlace) (b : Byte) : Except DecodeError Instr :=
  match place with
  | .command => .ok (decodeCommand b)
  | .callsign =>
    if b.extractLsb' 0 1 = 0 then .ok (.dataCallsignOctet (b.extractLsb' 1 7)) else .error (.notThePattern .callsign)
  | .ssid =>
    if b.extractLsb' 5 2 = 3 then
      .ok (.dataSsidOctet (b.extractLsb' 7 1) (b.extractLsb' 1 4) (b.extractLsb' 0 1))
    else .error (.notThePattern .ssid)
  | .control => if b = ctrlUi then .ok .dataCtrlUi else .error (.notThePattern .control)
  | .pid => if b = pidNol3 then .ok .dataPidNol3 else .error (.notThePattern .pid)
  | .flag => if b = flagOctet then .ok .dataFlag else .error (.notThePattern .flag)
  | .base91 =>
    if 0x21 ≤ b ∧ b ≤ 0x7B then .ok (.dataB91Char (b.extractLsb' 0 7)) else .error (.notThePattern .base91)

/-- The octet of an instruction or data pattern, field by field as the table writes it. -/
def encodeOctet : Instr → Byte
  | .b91enc => 0x01
  | .build => 0x02
  | .transmit => 0x03
  | .modrst => 0x04
  | .illegal op => op
  | .dataCallsignOctet c => c ++ 0#1
  | .dataSsidOctet h ssid l => h ++ 3#2 ++ ssid ++ l
  | .dataCtrlUi => ctrlUi
  | .dataPidNol3 => pidNol3
  | .dataFlag => flagOctet
  | .dataB91Char d => 0#1 ++ d

/-- The words of an instruction: one octet (R60). -/
def encode (i : Instr) : List Byte := [encodeOctet i]

/-- The place whose octets a row of the table describes. -/
def placeOf : Instr → OctetPlace
  | .b91enc => .command
  | .build => .command
  | .transmit => .command
  | .modrst => .command
  | .illegal _ => .command
  | .dataCallsignOctet _ => .callsign
  | .dataSsidOctet _ _ _ => .ssid
  | .dataCtrlUi => .control
  | .dataPidNol3 => .pid
  | .dataFlag => .flag
  | .dataB91Char _ => .base91

/-- The octets of a table word, the first octet in its low bits. -/
def octetsOf (nbits w : Nat) : List Byte :=
  (List.range (nbits / 8)).map fun k => BitVec.ofNat 8 (w >>> (8 * k))

/-- What the command decoder reads from a word numbered as spec/opcode_table.json numbers it. -/
def decodeTableWord (nbits w : Nat) : Option Instr :=
  match decode (octetsOf nbits w) with
  | .ok (i, _) => some i
  | .error _ => none

end Sys2Proof
end

