-- ==== Sys2Proof/Machine/Crc.lean ====
section
/-! DEFINITION. The CRC-16/CCITT generator (42_crc_fcs.md). -/

namespace Sys2Proof.Machine

/-- `CRC_POLY`, the reflected polynomial. -/
def crcPoly : Half := 0x8408

/-- `CRC_INIT` (R120). -/
def crcInit : Half := 0xFFFF

/-- One shift of the register (R121): the polynomial is added when the bit shifted out is 1. -/
def crcShift (crc : Half) : Half := if crc.getLsbD 0 then (crc >>> 1) ^^^ crcPoly else crc >>> 1

/-- `CrcOctet(crc, b)` (R121): the octet enters at bits 7:0, then eight shifts. -/
def crcOctet (crc : Half) (b : Byte) : Half :=
  crcShift (crcShift (crcShift (crcShift (crcShift (crcShift (crcShift (crcShift (crc ^^^ b.zeroExtend 16))))))))

/-- `CrcReg(octets)` (R122). -/
def crcReg (octets : List Byte) : Half := octets.foldl crcOctet crcInit

/-- `Fcs(octets)`: the one's complement of the register (R122). -/
def fcs (octets : List Byte) : Half := crcReg octets ^^^ 0xFFFF

/-- The two octets of the check sequence, low octet first (R69, R105). -/
def fcsOctets (octets : List Byte) : List Byte := [(fcs octets).extractLsb' 0 8, (fcs octets).extractLsb' 8 8]

end Sys2Proof.Machine
end

