-- ==== Sys2Proof/Machine/Frame.lean ====
section
/-! DEFINITION. The frame builder and BUILD (41_frame_builder.md). -/

namespace Sys2Proof.Machine

/-- A callsign octet: the character shifted left by one bit, bit 7 lost (R64). -/
def callsignOctet (c : Byte) : Byte := c <<< 1

/-- The SSID octet `(H << 7) or 0x60 or (SSID << 1) or L` (R65). -/
def ssidOctet (h : BitVec 1) (ssid : BitVec 4) (l : BitVec 1) : Byte :=
  (h.zeroExtend 8 <<< 7) ||| 0x60 ||| (ssid.zeroExtend 8 <<< 1) ||| l.zeroExtend 8

/-- `AddrOctets(a, isPath, L)` (R100): six characters padded with spaces (0x20), then the SSID octet. -/
def addrOctets (a : AddrReg) (isPath : Bool) (l : BitVec 1) : List Byte :=
  (List.range 6).map (fun i => callsignOctet (if i < a.clen.toNat then a.char i else 0x20)) ++
    [ssidOctet (if isPath then a.h else 0) a.ssid l]

/-- `AddressField()` (R102). -/
def addressField (s : State) : List Byte :=
  addrOctets s.addrDst false 0 ++
  addrOctets s.addrSrc false (if s.npath = 0 then 1 else 0) ++
  (if 1 ≤ s.npath then addrOctets s.addrPath1 true (if s.npath = 1 then 1 else 0) else []) ++
  (if s.npath = 2 then addrOctets s.addrPath2 true 1 else [])

/-- `Header()` (R103). -/
def header (s : State) : List Byte := addressField s ++ [ctrlUi, pidNol3]

/-- `Body()` (R104): the payload follows unchanged. -/
def body (s : State) : List Byte := header s ++ s.octets .pbuf s.plen.toNat

/-- `Frame()` (R105). -/
def frame (s : State) : List Byte := body s ++ fcsOctets (body s)

/-- `Validate()` (R110): the first check that fails, with its error (R106, R107, R201). -/
def validate (s : State) : Option (ErrorCode × BitVec 3) :=
  if s.npath = 3 then some (.badAddr, 4)
  else if s.addrDst.malformed then some (.badAddr, 0)
  else if s.addrSrc.malformed then some (.badAddr, 1)
  else if 1 ≤ s.npath ∧ s.addrPath1.malformed then some (.badAddr, 2)
  else if s.npath = 2 ∧ s.addrPath2.malformed then some (.badAddr, 3)
  else if payloadMax < s.plen.toNat then some (.frameTooLarge, 0)
  else none

/-- `Assemble()` (R108): the frame into `FBUF`, its length into `FLEN`. -/
def assemble (s : State) : State :=
  { s with fbuf := s.fbuf.writeList 0 (frame s), flen := BitVec.ofNat 16 (frame s).length }

/-- The operation of BUILD (R109). -/
def buildCommand (s : State) : State :=
  match validate s with
  | some (e, info) => s.raise e info
  | none => (assemble s).markDone

/-- BUILD (R109): a write of opcode 0x02 to `CMD`. -/
def execBuild (s : State) : Host.Outcome State Fault Refusal := .next (s.issue buildCommand)

end Sys2Proof.Machine
end

