-- ==== Sys2Proof/Machine/Nrzi.lean ====
section
/-! DEFINITION. The NRZI line encoder (44_nrzi.md). -/

namespace Sys2Proof.Machine

/-- `NRZI_INIT` (R143): high. -/
def nrziInit : Bool := true

/-- `NrziStep(level, b)` (R140): a 0 inverts the level, a 1 keeps it. -/
def nrziStep (level b : Bool) : Bool := if b then level else !level

/-- `Nrzi(bits, l0)`: the levels and the final level (R141). -/
def nrzi : List Bool → Bool → List Bool × Bool
  | [], l => ([], l)
  | b :: rest, l =>
    let r := nrzi rest (nrziStep l b)
    (nrziStep l b :: r.1, r.2)

end Sys2Proof.Machine
end

