-- ==== Sys2Proof/Machine/Stuffer.lean ====
section
/-! DEFINITION. The bit-stuffer and flag inserter (43_bit_stuffer.md). A bit is a `Bool`, true for 1. -/

namespace Sys2Proof.Machine

/-- The bits of an octet, bit 0 first (R42, R130). -/
def octetBits (b : Byte) : List Bool :=
  [b.getLsbD 0, b.getLsbD 1, b.getLsbD 2, b.getLsbD 3, b.getLsbD 4, b.getLsbD 5, b.getLsbD 6, b.getLsbD 7]

/-- `Bits(octets)` (R130). -/
def bits : List Byte → List Bool
  | [] => []
  | b :: rest => octetBits b ++ bits rest

/-- `Stuff` with `ones` consecutive 1s emitted already (R131): the fifth is followed by a 0 at once, whatever comes. -/
def stuffFrom (ones : Nat) : List Bool → List Bool
  | [] => []
  | false :: rest => false :: stuffFrom 0 rest
  | true :: rest => if ones + 1 = 5 then true :: false :: stuffFrom 0 rest else true :: stuffFrom (ones + 1) rest

/-- `Stuff(bits)`: the count starts at 0 at the first bit of the frame (R131). -/
def stuff (l : List Bool) : List Bool := stuffFrom 0 l

/-- `repeat(FLAGBITS, n)`: unstuffed flags (R133, R134). -/
def flags (n : Nat) : List Bool := (List.replicate n (bits [flagOctet])).flatten

/-- `Stream(pre, frame, rest)` (R133). -/
def stream (pre : Nat) (frame : List Byte) (rest : Nat) : List Bool := flags pre ++ stuff (bits frame) ++ flags rest

end Sys2Proof.Machine
end

