-- ==== Sys2Proof/Machine/Tone.lean ====
section
/-! DEFINITION. The continuous-phase two-tone modulator (45_afsk.md). -/

namespace Sys2Proof.Machine

/-- `MARK_LEVEL` (R150). -/
def markLevel : Bool := true

/-- `PHASE_INIT` (R24), in turns. -/
def phaseInit : Rat := 0

/-- `Tone(level)` (R150). -/
def tone (s : State) (level : Bool) : Word := if level = markLevel then s.mark else s.space

/-- `frac(q)` (00_scope.md section 6.1). -/
def frac (q : Rat) : Rat := q - (q.floor : Rat)

/-- The advance of one sample (R151, R153): `frac(phase + freq / S)`. -/
def phaseAdvance (phase : Rat) (freq rate : Nat) : Rat := frac (phase + (freq : Rat) / (rate : Rat))

/-- `clamp16` (R155). -/
def clamp16 (n : Int) : Int := max (-32768) (min 32767 n)

/-! ## The sample, exactly

`Sample(A, p)` is `A * sin(2 pi p)` rounded and clamped, with the exact real sine (R152). By symmetry the sine is taken
at `q` turns with `0 <= q <= 1/4`. A Taylor polynomial at an angle computed with 20 decimals of pi gives `sin(2 pi q)`
within `10^-20`; where both ends of that interval round alike, that is the value. Where they do not, whether
`A * sin(2 pi q)` reaches the half-integer between them is decided exactly in integers (log 9). -/

/-- The first 21 digits of pi. -/
def piDigits : Nat := 314159265358979323846

/-- `n` terms of the sine series from a term `t`, the power of `x` in it being `k`: `t - t x^2 / ((k+1)(k+2)) + …`. -/
def sineTerms (xx : Rat) : Nat → Nat → Rat → Rat
  | 0, _, _ => 0
  | n + 1, k, t => t + sineTerms xx n (k + 2) (-t * xx / ((k + 1) * (k + 2) : Nat))

/-- `sin(2 pi q)` within `sineError`, for `0 <= q <= 1/4`. -/
def sineApprox (q : Rat) : Rat :=
  let x := 2 * q * (piDigits : Rat) / (10 ^ 20 : Nat)
  sineTerms (x * x) 13 1 x

/-- The error bound of `sineApprox`. -/
def sineError : Rat := 1 / (10 ^ 20 : Nat)

/-- How many multiples of pi `theta, 2 theta, …` passes in `m` more steps, where `cos theta = P / Q`: `u` and `v` are
`sin(n theta)` and `sin((n+1) theta)`, scaled, and `k` is the number passed by `n theta`. -/
def multiplesPassed (P Q : Int) : Nat → Int → Int → Nat → Nat
  | 0, _, _, k => k
  | m + 1, u, v, k =>
    multiplesPassed P Q m v (2 * P * v - Q * Q * u) (if 0 < (if k % 2 = 0 then v else -v) then k else k + 1)

/-- Whether `A * sin(2 pi q) >= n - 1/2`, for `1 <= n` and `0 <= q <= 1/4`. With `cos theta = (2n-1) / (2A)` and
`q = a / b` that is `2 b theta >= (b - 4 a) pi`. -/
def reaches (A : Nat) (q : Rat) (n : Nat) : Bool :=
  decide (n ≤ A) && decide (q.den ≤ multiplesPassed (2 * (n : Int) - 1) (2 * (A : Int)) (2 * q.den) 0 1 0 + 4 * q.num.toNat)

/-- `A * sin(2 pi q)` rounded to the nearest integer, a tie upwards, for `0 <= q <= 1/4`. -/
def magnitude (A : Nat) (q : Rat) : Nat :=
  let y := sineApprox q
  let lo := ((A : Rat) * (y - sineError) + 1 / 2).floor.toNat
  let hi := ((A : Rat) * (y + sineError) + 1 / 2).floor.toNat
  if lo = hi then lo else if reaches A q hi then hi else lo

/-- `Sample(A, p)` as an integer (R152): rounded with ties away from zero (R154), then clamped (R155). -/
def sampleInt (A : Nat) (p : Rat) : Int :=
  let p := frac p
  let h := if p ≤ 1 / 2 then p else 1 - p
  let m : Int := magnitude A (if h ≤ 1 / 4 then h else 1 / 2 - h)
  clamp16 (if p ≤ 1 / 2 then m else -m)

/-- `Sample(A, p)`: a 16-bit two's-complement integer (R152, R73). -/
def sample (A : Half) (p : Rat) : Sample := BitVec.ofInt 16 (sampleInt A.toNat p)

/-! ## Symbols -/

/-- `SymbolLength()` (R157): the samples of the symbol, and the remainder carried to the next. -/
def symbolLength (tacc rate bitRate : Nat) : Nat × Nat := ((tacc + rate) / bitRate, (tacc + rate) % bitRate)

/-- `n` sample steps at one frequency (R153): the samples and the final phase. -/
def toneSamples (A : Half) (freq rate : Nat) : Nat → Rat → List Sample × Rat
  | 0, p => ([], p)
  | n + 1, p =>
    let p' := phaseAdvance p freq rate
    let r := toneSamples A freq rate n p'
    (sample A p' :: r.1, r.2)

/-- `Synth(levels, p0)` (R160), with the configuration of `s` and a starting remainder. -/
def synth (s : State) : List Bool → Nat → Rat → List Sample × Rat
  | [], _, p => ([], p)
  | level :: rest, tacc, p =>
    let len := symbolLength tacc s.sampleRate.toNat s.bitRate.toNat
    let here := toneSamples s.ampl (tone s level).toNat s.sampleRate.toNat len.1 p
    let after := synth s rest len.2 here.2
    (here.1 ++ after.1, after.2)

end Sys2Proof.Machine
end

