-- ==== Sys2Proof/Machine/Sequencer.lean ====
section
/-! DEFINITION. The sequencer: TRANSMIT, MODRST and the steps of a running transmission (46_sequencer.md). -/

namespace Sys2Proof.Machine

/-! ## Commands -/

/-- `ConfigCheck()` (R174). -/
def configCheck (s : State) : Option (ErrorCode × BitVec 3) :=
  if s.sampleRate = 0 then some (.badConfig, 0)
  else if s.bitRate = 0 then some (.badConfig, 1)
  else none

/-- The end of acceptance, after `Assemble()` (R175): the warning (R158), the stuffed stream read back from `FBUF`, the
position at the start. `phase` and `level` stay as they are; `freq` is undefined until the first symbol (R27, log 7). -/
def startStream (s : State) : State :=
  { s with
    warnRate := s.rateWarning
    draws := s.draws + 1
    seq := .stream
      { T := stream s.preamble.toNat (s.octets .fbuf s.flen.toNat) s.rest.toNat
        k := 0
        j := 0
        tacc := 0
        freq := Config.freqBeforeFirstSymbol s.draws
        cbuf := [] } }

/-- The operation of TRANSMIT: acceptance (R175). Both checks come before anything is written (R206). -/
def transmitCommand (s : State) : State :=
  match validate s with
  | some (e, info) => s.raise e info
  | none =>
    match configCheck s with
    | some (e, info) => s.raise e info
    | none => startStream (assemble s)

/-- The operation of MODRST (R171). -/
def modrstCommand (s : State) : State := { s with phase := phaseInit, level := nrziInit }.markDone

/-- TRANSMIT (R170): a write of opcode 0x03 to `CMD`. -/
def execTransmit (s : State) : Host.Outcome State Fault Refusal := .next (s.issue transmitCommand)

/-- MODRST (R171): a write of opcode 0x04 to `CMD`. -/
def execModrst (s : State) : Host.Outcome State Fault Refusal := .next (s.issue modrstCommand)

/-! ## The steps of a running transmission -/

/-- `SymbolStart` on the bit `b` (R177). -/
def symbolStart (s : State) (f : InFlight) (b : Bool) : State :=
  let level := nrziStep s.level b
  let len := symbolLength f.tacc s.sampleRate.toNat s.bitRate.toNat
  { s with
    level := level
    seq := .stream { f with freq := tone s level, j := len.1, tacc := len.2, k := f.k + 1 } }

/-- `SampleStep` (R178, R153): the phase advances first, then the sample is taken. -/
def sampleStep (s : State) (f : InFlight) : State :=
  let phase := phaseAdvance s.phase f.freq.toNat s.sampleRate.toNat
  { s with phase := phase, seq := .stream { f with cbuf := f.cbuf ++ [sample s.ampl phase], j := f.j - 1 } }

/-- `Complete` (R179): `phase` and `level` keep their final values. -/
def complete (s : State) : State := { s with seq := .idle }.markDone

/-- `Flush` (R181): the chunk is offered. Without an answer the block waits (log 3); `ok` empties the chunk buffer;
`fail` drops the chunk and raises `SinkFailure(0)` (R182). -/
def flush (s : State) (f : InFlight) : State :=
  match s.sinkAnswers with
  | [] => s
  | .ok :: answers =>
    { s with sinkAnswers := answers, sinkLog := s.sinkLog ++ [(f.cbuf, SinkAnswer.ok)], seq := .stream { f with cbuf := [] } }
  | .fail :: answers =>
    { s with sinkAnswers := answers, sinkLog := s.sinkLog ++ [(f.cbuf, SinkAnswer.fail)] }.raise .sinkFail 0

/-- The one step that is enabled (R176), chosen in the order of the rule; in IDLE there is none (R12, R214). -/
def blockStep (s : State) : State :=
  match s.seq with
  | .idle => s
  | .stream f =>
    if f.cbuf.length = s.chunkMax then flush s f
    else if 0 < f.j then sampleStep s f
    else
      match f.T[f.k]? with
      | some b => symbolStart s f b
      | none => if 0 < f.cbuf.length then flush s f else complete s

end Sys2Proof.Machine
end

