-- ==== Sys2Proof/Machine/Command.lean ====
section
/-! DEFINITION. The illegal opcodes (R62), and the data patterns of the opcode table offered as command words (log 1). -/

namespace Sys2Proof.Machine

/-- The operation of an illegal opcode: `raise BadCommand(0)` (R62). -/
def illegalCommand (s : State) : State := s.raise .badCmd 0

/-- ILLEGAL (R62): a write of any other opcode to `CMD`; all of them behave the same. -/
def execIllegal (_opcode : Byte) (s : State) : Host.Outcome State Fault Refusal := .next (s.issue illegalCommand)

/-- The operation a command word selects (R61, R62). A data pattern is no command, so the decoder yields none; the
arms for them are there because the match names every constructor. -/
def commandOf (op : Byte) : State → State :=
  match decodeCommand op with
  | .b91enc => b91encCommand
  | .build => buildCommand
  | .transmit => transmitCommand
  | .modrst => modrstCommand
  | .illegal _ => illegalCommand
  | .dataCallsignOctet _ => illegalCommand
  | .dataSsidOctet _ _ _ => illegalCommand
  | .dataCtrlUi => illegalCommand
  | .dataPidNol3 => illegalCommand
  | .dataFlag => illegalCommand
  | .dataB91Char _ => illegalCommand

/-- An octet written to `CMD` (R61, R62). -/
def commandWord (op : Byte) (s : State) : Host.Outcome State Fault Refusal := .next (s.issue (commandOf op))

/-- DATA.CALLSIGN_OCTET (R64) written to `CMD` (log 1). -/
def execDataCallsignOctet (c : BitVec 7) (s : State) : Host.Outcome State Fault Refusal :=
  commandWord (encodeOctet (.dataCallsignOctet c)) s

/-- DATA.SSID_OCTET (R65) written to `CMD` (log 1). -/
def execDataSsidOctet (h : BitVec 1) (ssid : BitVec 4) (l : BitVec 1) (s : State) : Host.Outcome State Fault Refusal :=
  commandWord (encodeOctet (.dataSsidOctet h ssid l)) s

/-- DATA.CTRL_UI (R68) written to `CMD` (log 1): the octet 0x03 is the opcode of TRANSMIT. -/
def execDataCtrlUi (s : State) : Host.Outcome State Fault Refusal := commandWord (encodeOctet .dataCtrlUi) s

/-- DATA.PID_NOL3 (R68) written to `CMD` (log 1). -/
def execDataPidNol3 (s : State) : Host.Outcome State Fault Refusal := commandWord (encodeOctet .dataPidNol3) s

/-- DATA.FLAG (R70) written to `CMD` (log 1). -/
def execDataFlag (s : State) : Host.Outcome State Fault Refusal := commandWord (encodeOctet .dataFlag) s

/-- DATA.B91_CHAR (R72) written to `CMD` (log 1). -/
def execDataB91Char (d : BitVec 7) (s : State) : Host.Outcome State Fault Refusal :=
  commandWord (encodeOctet (.dataB91Char d)) s

end Sys2Proof.Machine
end

