-- ==== Sys2Proof/Machine/Dispatch.lean ====
section
/-! DEFINITION. One arm per row of spec/opcode_table.json. -/

namespace Sys2Proof.Machine

/-- The effect of writing the octet of `i` to `CMD`. -/
def exec (i : Instr) (s : State) : Host.Outcome State Fault Refusal :=
  match i with
  | .b91enc => Sys2Proof.Machine.execB91enc s
  | .build => Sys2Proof.Machine.execBuild s
  | .transmit => Sys2Proof.Machine.execTransmit s
  | .modrst => Sys2Proof.Machine.execModrst s
  | .illegal opcode => Sys2Proof.Machine.execIllegal opcode s
  | .dataCallsignOctet c => Sys2Proof.Machine.execDataCallsignOctet c s
  | .dataSsidOctet h ssid l => Sys2Proof.Machine.execDataSsidOctet h ssid l s
  | .dataCtrlUi => Sys2Proof.Machine.execDataCtrlUi s
  | .dataPidNol3 => Sys2Proof.Machine.execDataPidNol3 s
  | .dataFlag => Sys2Proof.Machine.execDataFlag s
  | .dataB91Char d => Sys2Proof.Machine.execDataB91Char d s

end Sys2Proof.Machine
end

