-- ==== Sys2Proof/Machine/HostAccess.lean ====
section
/-! DEFINITION. What comes from outside the block: host accesses (20_memory.md) and reset (70_reset_and_hazards.md). -/

namespace Sys2Proof.Machine

/-- The opcode, where an event is a write of `CMD`: a wider value keeps its low 8 bits (R16, R19). -/
def opcodeWritten : Event → Option Byte
  | .regWrite n v => if regOfNumber n = some .cmd then some (BitVec.ofNat 8 v) else none
  | .regRead _ => none
  | .pbufWrite _ _ => none
  | .bufRead _ _ => none
  | .reset => none
  | .blockTurn => none

/-- A host write that is no command: while busy it is dropped and recorded, whatever it names (R48, R172; log 8); a
number that is no register ignores it (R19). -/
def hostRegWrite (s : State) (n v : Nat) : State :=
  if s.busy then s.markOverrun
  else
    match regOfNumber n with
    | some r => s.writeReg r v
    | none => s

/-- A host write of the payload buffer (R40, R48). -/
def hostPbufWrite (s : State) (i : Nat) (b : Byte) : State := if s.busy then s.markOverrun else s.writePbuf i b

/-- What a register number reads as (R19, R46). -/
def State.readNumber (s : State) (n : Nat) : DWord :=
  match regOfNumber n with
  | some r => s.readReg r
  | none => 0

/-- The reset event (R230, R231): every state that has a reset value takes it; the buffers' contents are unspecified
from here on, so nothing is listed and the power-up is a new one (log 6). What is outside the block stays. -/
def resetEvent (s : State) : State :=
  { State.reset with
    epoch := s.epoch + 1
    draws := s.draws
    chunkMaxLess1 := s.chunkMaxLess1
    inbox := s.inbox
    sinkAnswers := s.sinkAnswers
    sinkLog := s.sinkLog
    reads := s.reads }

/-- An event that is no write of `CMD`. -/
def takeEvent (e : Event) (s : State) : State :=
  match e with
  | .regWrite n v => hostRegWrite s n v
  | .regRead n => s.logRead (s.readNumber n)
  | .pbufWrite i b => hostPbufWrite s i b
  | .bufRead space i => s.logRead ((s.octet space i).zeroExtend 64)
  | .reset => resetEvent s
  | .blockTurn => blockStep s

end Sys2Proof.Machine
end

