-- ==== Sys2Proof/Machine/Step.lean ====
section
/-! DEFINITION. One step: the next event from outside, or the block's own step where none waits (R40, R44, R176; log 2,
log 11). -/

namespace Sys2Proof.Machine

/-- An event is taken off the inbox first; a write of `CMD` runs the command its octet decodes to. -/
def step (s : State) : Host.Outcome State Fault Refusal :=
  match s.inbox with
  | [] => .next (blockStep s)
  | e :: rest =>
    match opcodeWritten e with
    | some op => exec (decodeCommand op) { s with inbox := rest }
    | none => .next (takeEvent e { s with inbox := rest })

/-- A command comes from the host as a write of `CMD`, register number 0 (R46): it is put before the other inputs. -/
def State.withFetchWord (s : State) (nbits w : Nat) : State :=
  { s with inbox := .regWrite 0 (w % 2 ^ nbits) :: s.inbox }

end Sys2Proof.Machine
end

