-- ==== Sys2Proof/Safety.lean ====
section
/-! DEFINITION. The terms claims are made in: what an instruction leaves unchanged, a valid descriptor, the invariant of
every run, what a transmission has delivered and still has to deliver, and what a receiver computes. -/

namespace Sys2Proof.Machine

/-! ## What stays the same -/

/-- Every register but those named reads as before. -/
def SameRegs (s t : State) (changed : List Reg) : Prop := ∀ r, r ∉ changed → t.readReg r = s.readReg r

/-- Every octet of a space reads as before. -/
def SameBuf (s t : State) (space : BufSpace) : Prop := ∀ i, t.octet space i = s.octet space i

/-- The modulator state is as before. -/
def SameModulator (s t : State) : Prop := t.phase = s.phase ∧ t.level = s.level

/-- Nothing was offered to the sink, no input was taken, nothing was read, no parameter changed. -/
def SameOutside (s t : State) : Prop :=
  t.sinkLog = s.sinkLog ∧ t.sinkAnswers = s.sinkAnswers ∧ t.inbox = s.inbox ∧ t.reads = s.reads ∧
    t.chunkMaxLess1 = s.chunkMaxLess1 ∧ t.epoch = s.epoch

/-- The fields of `STATUS` other than `BUSY` and `OVERRUN`. -/
def CommandOutcome (t : State) (done : Bool) (err : ErrorCode) (einfo : BitVec 3) (warnRate : Bool) : Prop :=
  t.done = done ∧ t.err = err ∧ t.einfo = einfo ∧ t.warnRate = warnRate

/-! ## A valid descriptor -/

/-- "An address register `a` is malformed when `a.CLEN = 0` or `a.CLEN > 6`" (R106). -/
def BadAddress (a : AddrReg) : Prop := a.clen = 0 ∨ 6 < a.clen.toNat

/-- No check of R110 fails. -/
def DescriptorOk (s : State) : Prop :=
  s.npath ≠ 3 ∧ ¬BadAddress s.addrDst ∧ ¬BadAddress s.addrSrc ∧ (1 ≤ s.npath → ¬BadAddress s.addrPath1) ∧
    (s.npath = 2 → ¬BadAddress s.addrPath2) ∧ s.plen.toNat ≤ 256

/-- Neither rate is 0 (R174). -/
def RatesOk (s : State) : Prop := s.sampleRate ≠ 0 ∧ s.bitRate ≠ 0

/-- The frame's length: `18 + 7*NPATH + PLEN` (R67). -/
def frameLength (s : State) : Nat := 18 + 7 * s.npath.toNat + s.plen.toNat

/-! ## Turns and events -/

/-- In `s` the block has its turn: no event waits, or a turn of the block is next. `s'` is `s` without that event. -/
def BlocksTurn (s s' : State) : Prop :=
  (s.inbox = [] ∧ s' = s) ∨ ∃ rest, s.inbox = .blockTurn :: rest ∧ s' = { s with inbox := rest }

/-- In `s` a write of the opcode `op` to `CMD` is next. -/
def CommandNext (s : State) (op : Byte) : Prop :=
  ∃ v rest, s.inbox = .regWrite 0 v :: rest ∧ BitVec.ofNat 8 v = op

/-- The chunk buffer is offered to the sink (R176, lines 1 and 4). -/
def Offers (s : State) (f : InFlight) : Prop :=
  f.cbuf.length = s.chunkMax ∨ (f.j = 0 ∧ f.T.length ≤ f.k ∧ 0 < f.cbuf.length)

/-! ## What a transmission delivers -/

/-- The samples of the chunks the sink answered `ok` to, in order. -/
def State.delivered (s : State) : List Sample := (s.sinkLog.filter fun c => c.2 == .ok).flatMap Prod.fst

/-- What the running transmission still has to produce, and the final phase: the rest of the current symbol, then
`Synth` of the levels of the rest of the stream (R160, R170). -/
def State.remaining (s : State) (f : InFlight) : List Sample × Rat :=
  let here := toneSamples s.ampl f.freq.toNat s.sampleRate.toNat f.j s.phase
  let after := synth s (nrzi (f.T.drop f.k) s.level).1 f.tacc here.2
  (here.1 ++ after.1, after.2)

/-- The level at the end of the running transmission (R141). -/
def State.finalLevel (s : State) (f : InFlight) : Bool := (nrzi (f.T.drop f.k) s.level).2

/-- The lengths of `M` symbols from a starting remainder (R157). -/
def symbolLengths (rate bitRate : Nat) : Nat → Nat → List Nat
  | 0, _ => []
  | M + 1, tacc =>
    (symbolLength tacc rate bitRate).1 :: symbolLengths rate bitRate M (symbolLength tacc rate bitRate).2

/-! ## The invariant -/

/-- The buffers are in canonical form. -/
def BuffersCanonical (s : State) : Prop :=
  Memory.wf 256 s.pbuf = true ∧ Memory.wf 288 s.fbuf = true ∧ Memory.wf 15 s.b91out = true

/-- `phase` is a number of turns in `[0, 1)` (R24). -/
def PhaseReduced (s : State) : Prop := 0 ≤ s.phase ∧ s.phase < 1

/-- `H` of `ADDR_DST` and `ADDR_SRC` is hardwired 0 (R11). -/
def HardwiredBitsZero (s : State) : Prop := s.addrDst.h = 0 ∧ s.addrSrc.h = 0

/-- The outcome fields are legal: `EINFO` is one of R201's values for the code, OUT_OF_MEMORY is never recorded (R204), a
command that is done has no error, a running transmission is neither done nor failed (R17). -/
def StatusLegal (s : State) : Prop :=
  s.err ≠ .outOfMemory ∧
    (s.err = .badAddr → s.einfo.toNat ≤ 4) ∧
    (s.err = .badConfig → s.einfo.toNat ≤ 1) ∧
    (s.err ≠ .badAddr → s.err ≠ .badConfig → s.einfo = 0) ∧
    (s.done = true → s.err = .none) ∧
    (s.busy = true → s.done = false ∧ s.err = .none)

/-- `FLEN` is 0, or the length of a frame whose octets are all in `FBUF` and leave the residue 0xF0B8 (R15, R124). -/
def FrameChecked (s : State) : Prop :=
  s.flen = 0 ∨
    (18 ≤ s.flen.toNat ∧ s.flen.toNat ≤ 288 ∧ (∀ i, i < s.flen.toNat → (s.fbuf.read i).isSome = true) ∧
      crcReg (s.octets .fbuf s.flen.toNat) = 0xF0B8)

/-- While STREAM: the operands are valid, the stream is that of `FBUF` and the flag counts, the position and the chunk
buffer are in range, the remainder and the frequency are those of the symbols started, the warning is that of the rates
(R27, R175 to R178). -/
def TransmissionConsistent (s : State) : Prop :=
  ∀ f, s.seq = .stream f →
    DescriptorOk s ∧ RatesOk s ∧ s.flen.toNat = frameLength s ∧
    f.T = stream s.preamble.toNat (s.octets .fbuf s.flen.toNat) s.rest.toNat ∧
    f.k ≤ f.T.length ∧ f.cbuf.length ≤ s.chunkMax ∧
    f.tacc = f.k * s.sampleRate.toNat % s.bitRate.toNat ∧
    (f.k = 0 → f.j = 0 ∧ f.cbuf = []) ∧
    (0 < f.k → f.freq = tone s s.level) ∧
    s.warnRate = decide (s.sampleRate.toNat % s.bitRate.toNat ≠ 0)

/-- What holds at reset and after every step. -/
def Inv (s : State) : Prop :=
  BuffersCanonical s ∧ PhaseReduced s ∧ HardwiredBitsZero s ∧ StatusLegal s ∧ FrameChecked s ∧ TransmissionConsistent s

/-- A healthy run: the host kept its hands off while the block was busy (U6: "every claim takes OVERRUN = 0 as a
premise"). -/
def Healthy (s : State) : Prop := s.overrun = false

/-! ## What a receiver computes -/

/-- After every five consecutive 1s the next bit is deleted (R136); `ones` is the count so far. -/
def unstuffFrom (ones : Nat) : List Bool → List Bool
  | [] => []
  | b :: rest =>
    if ones = 5 then unstuffFrom 0 rest
    else if b then true :: unstuffFrom (ones + 1) rest
    else false :: unstuffFrom 0 rest

/-- NRZI decoding (R144): a 1 where the level is the previous one. -/
def nrziDecode (l : Bool) : List Bool → List Bool
  | [] => []
  | lv :: rest => (lv == l) :: nrziDecode lv rest

/-- A callsign read from the octets of an address: shifted back, trailing spaces removed (R111). -/
def receivedCall (octets : List Byte) : List Byte := ((octets.take 6).map fun (o : Byte) => o >>> 1).rdropWhile fun c => c == 0x20

/-- A value read from base-91 characters, most significant first (R91). -/
def base91Value (chars : List Byte) : Nat := chars.foldl (fun v c => v * 91 + (c.toNat - 33)) 0

end Sys2Proof.Machine
end

