-- ==== Sys2Proof/Certificates/Slice0/Obligations.lean ====
section
/-! DEFINITION. The statements about this model, one per obligation of OBLIGATIONS.json. -/

open Sys2Proof Sys2Proof.Machine

/-! ## Decoding -/

/-- Each opcode of R61 decodes to its command, some other opcodes to ILLEGAL (R62), and octets of the worked frames to
their patterns (V12, V15, V20): 0x9C is `N`, 0xE2 is SSID 1 with `H` and without `L`. -/
def Obligations.WrittenOutWordsDecode : Prop :=
  decode [0b00000001] = .ok (.b91enc, []) ∧ decode [0b00000010] = .ok (.build, []) ∧
  decode [0b00000011] = .ok (.transmit, []) ∧ decode [0b00000100] = .ok (.modrst, []) ∧
  decode [0b00000000] = .ok (.illegal 0, []) ∧ decode [0b11111111] = .ok (.illegal 0xFF, []) ∧
  decodeAt .callsign 0b10011100 = .ok (.dataCallsignOctet 0x4E) ∧
  decodeAt .ssid 0b11100010 = .ok (.dataSsidOctet 1 1 0) ∧
  decodeAt .control 0b00000011 = .ok .dataCtrlUi ∧ decodeAt .pid 0b11110000 = .ok .dataPidNol3 ∧
  decodeAt .flag 0b01111110 = .ok .dataFlag ∧ decodeAt .base91 0b01111011 = .ok (.dataB91Char 0x7B)

/-- Every well-formed row of the table is what its octet decodes to at its own place, whatever its fields. -/
def Obligations.DecodeOfEncodeIsTheInstruction : Prop :=
  ∀ i : Instr, i.wf = true → decodeAt (placeOf i) (encodeOctet i) = .ok i

/-- Decoding is injective and yields well-formed rows of its place only: the octet can be read back. -/
def Obligations.EncodeOfDecodeIsTheOctet : Prop :=
  ∀ (p : OctetPlace) (b : Byte) (i : Instr), decodeAt p b = .ok i → i.wf = true ∧ placeOf i = p ∧ encodeOctet i = b

/-- R60, R62: every octet is a command word; the opcodes 0x00 and 0x05 to 0xFF, and no others, are illegal; the decoder
needs one octet and leaves the rest. -/
def Obligations.EveryOctetIsACommandWord : Prop :=
  (∀ (op : Byte) (rest : List Byte), decode (op :: rest) = .ok (decodeCommand op, rest)) ∧
  (∀ op : Byte, placeOf (decodeCommand op) = .command ∧ encodeOctet (decodeCommand op) = op) ∧
  ∀ op : Byte, decodeCommand op = .illegal op ↔ op = 0x00 ∨ (0x05 ≤ op.toNat ∧ op.toNat ≤ 0xFF)

/-! ## Steps -/

/-- Every command and every step answers a next state: nothing stops the machine (log 15). -/
def Obligations.NothingStopsTheMachine : Prop :=
  (∀ (i : Instr) (s : State), ∃ t, exec i s = .next t) ∧ ∀ s : State, ∃ t, step s = .next t

/-- A write of `CMD` runs the instruction its octet decodes to, on the state without that event; so does a fetched
word. -/
def Obligations.AStepRunsTheDecodedInstruction : Prop :=
  (∀ (s : State) (v : Nat) (rest : List Event) (i : Instr), s.inbox = .regWrite 0 v :: rest →
    decode [BitVec.ofNat 8 v] = .ok (i, []) → step s = exec i { s with inbox := rest }) ∧
  ∀ (s : State) (w : Nat) (i : Instr), decodeTableWord 8 w = some i → step (s.withFetchWord 8 w) = exec i s

/-- R230, R231, and the reset column of R46: at power-up and after a reset event, in whatever state it came, every
register reads its reset value, the block is idle, `phase` is 0 and `level` is 1. A reset event offers no chunk and
leaves what is outside the block. -/
def Obligations.ResetValuesAndResetEvent : Prop :=
  (∀ t : State, (t = State.reset ∨ ∃ s rest, s.inbox = .reset :: rest ∧ step s = .next t) →
    t.seq = .idle ∧ t.phase = 0 ∧ t.level = true ∧
    t.readReg .cmd = 0 ∧ t.readReg .status = 0 ∧ t.readReg .cfgSampleRate = 48000 ∧ t.readReg .cfgBitRate = 1200 ∧
    t.readReg .cfgMark = 1200 ∧ t.readReg .cfgSpace = 2200 ∧ t.readReg .cfgPreamble = 25 ∧ t.readReg .cfgRest = 5 ∧
    t.readReg .cfgAmpl = 32767 ∧ t.readReg .addrDst = 0 ∧ t.readReg .addrSrc = 0 ∧ t.readReg .addrPath1 = 0 ∧
    t.readReg .addrPath2 = 0 ∧ t.readReg .npath = 0 ∧ t.readReg .plen = 0 ∧ t.readReg .flen = 0 ∧
    t.readReg .b91Value = 0 ∧ t.readReg .b91Width = 0) ∧
  ∀ (s : State) (rest : List Event), s.inbox = .reset :: rest →
    ∃ t, step s = .next t ∧ t.sinkLog = s.sinkLog ∧ t.sinkAnswers = s.sinkAnswers ∧ t.inbox = rest ∧ t.reads = s.reads

/-- The invariant holds at reset. -/
def Obligations.ResetMeetsTheInvariant : Prop := Inv State.reset

/-- Every step, from every state that meets the invariant, gives a state that meets it. -/
def Obligations.EveryStepKeepsTheInvariant : Prop := ∀ s t : State, Inv s → step s = .next t → Inv t

/-! ## The status register and the registers -/

/-- R17: the bits of `STATUS`, and R200: the numbers of the errors. -/
def Obligations.StatusBitsAreTheFlags : Prop :=
  ErrorCode.none.code = 0 ∧ ErrorCode.frameTooLarge.code = 1 ∧ ErrorCode.badAddr.code = 2 ∧
  ErrorCode.sinkFail.code = 3 ∧ ErrorCode.outOfMemory.code = 4 ∧ ErrorCode.badConfig.code = 5 ∧
  ErrorCode.badCmd.code = 6 ∧
  ∀ s : State,
    let v := s.readReg .status
    v.getLsbD 0 = s.busy ∧ v.getLsbD 1 = s.done ∧ v.extractLsb' 2 2 = 0 ∧ v.extractLsb' 4 4 = s.err.code ∧
    v.extractLsb' 8 3 = s.einfo ∧ v.getLsbD 11 = s.warnRate ∧ v.getLsbD 12 = s.overrun ∧ v.extractLsb' 13 51 = 0 ∧
    (s.busy = true ↔ s.seq ≠ .idle)

/-- R46: which number is which register. R11, R13 to R15, R18: a register reads as the state that the commands use, an
address register field by field. -/
def Obligations.RegisterNumbersAreTheMap : Prop :=
  (∀ (n : Nat) (r : Reg), regOfNumber n = some r ↔ (n, r) ∈
    [(0x00, Reg.cmd), (0x01, .status), (0x02, .cfgSampleRate), (0x03, .cfgBitRate), (0x04, .cfgMark), (0x05, .cfgSpace),
     (0x06, .cfgPreamble), (0x07, .cfgRest), (0x08, .cfgAmpl), (0x10, .addrDst), (0x11, .addrSrc), (0x12, .addrPath1),
     (0x13, .addrPath2), (0x14, .npath), (0x15, .plen), (0x16, .flen), (0x18, .b91Value), (0x19, .b91Width)]) ∧
  ∀ s : State,
    s.readReg .cmd = 0 ∧ (s.readReg .cfgSampleRate).toNat = s.sampleRate.toNat ∧
    (s.readReg .cfgBitRate).toNat = s.bitRate.toNat ∧ (s.readReg .cfgMark).toNat = s.mark.toNat ∧
    (s.readReg .cfgSpace).toNat = s.space.toNat ∧ (s.readReg .cfgPreamble).toNat = s.preamble.toNat ∧
    (s.readReg .cfgRest).toNat = s.rest.toNat ∧ (s.readReg .cfgAmpl).toNat = s.ampl.toNat ∧
    (s.readReg .npath).toNat = s.npath.toNat ∧ (s.readReg .plen).toNat = s.plen.toNat ∧
    (s.readReg .flen).toNat = s.flen.toNat ∧ (s.readReg .b91Value).toNat = s.b91Value.toNat ∧
    (s.readReg .b91Width).toNat = s.b91Width.toNat ∧
    ∀ (r : Reg) (a : AddrReg),
      (r, a) ∈ [(Reg.addrDst, s.addrDst), (.addrSrc, s.addrSrc), (.addrPath1, s.addrPath1), (.addrPath2, s.addrPath2)] →
      (∀ i, i < 6 → (s.readReg r).extractLsb' (8 * i) 8 = a.char i) ∧
      (s.readReg r).extractLsb' 48 4 = a.clen ∧ (s.readReg r).extractLsb' 52 4 = a.ssid ∧
      (s.readReg r).extractLsb' 56 1 = (if r = .addrDst ∨ r = .addrSrc then 0 else a.h)

/-- R19, R46, R11: a register write while idle keeps the low bits of its value that the register has; reserved bits, the
`H` of `ADDR_DST` and `ADDR_SRC` and read-only registers ignore it; a number that is no register ignores it and reads 0.
Nothing else changes. `CMD` takes the low 8 bits as its opcode. Reserved bits read as 0 in every state. -/
def Obligations.HostWritesKeepTheWritableBits : Prop :=
  (∀ (s : State) (n v : Nat) (rest : List Event) (r : Reg), s.busy = false → s.inbox = .regWrite n v :: rest →
    regOfNumber n = some r → r ≠ .cmd →
    ∃ t, step s = .next t ∧
      (r = .status ∨ r = .flen → t.readReg r = s.readReg r) ∧
      (r = .cfgSampleRate ∨ r = .cfgBitRate ∨ r = .cfgMark ∨ r = .cfgSpace ∨ r = .b91Value →
        t.readReg r = BitVec.ofNat 64 v &&& 0xFFFFFFFF) ∧
      (r = .cfgPreamble ∨ r = .cfgRest ∨ r = .cfgAmpl ∨ r = .plen → t.readReg r = BitVec.ofNat 64 v &&& 0xFFFF) ∧
      (r = .npath → t.readReg r = BitVec.ofNat 64 v &&& 0x3) ∧
      (r = .b91Width → t.readReg r = BitVec.ofNat 64 v &&& 0xF) ∧
      (r = .addrDst ∨ r = .addrSrc → t.readReg r = BitVec.ofNat 64 v &&& 0x00FFFFFFFFFFFFFF) ∧
      (r = .addrPath1 ∨ r = .addrPath2 → t.readReg r = BitVec.ofNat 64 v &&& 0x01FFFFFFFFFFFFFF) ∧
      SameRegs s t [r] ∧ (∀ sp, SameBuf s t sp) ∧ SameModulator s t ∧ t.seq = s.seq) ∧
  (∀ (s : State) (n v : Nat) (rest : List Event), s.busy = false → s.inbox = .regWrite n v :: rest →
    regOfNumber n = none → step s = .next { s with inbox := rest }) ∧
  (∀ (s : State) (n : Nat) (rest : List Event), s.inbox = .regRead n :: rest → regOfNumber n = none →
    step s = .next { s with inbox := rest, reads := s.reads ++ [0] }) ∧
  (∀ (s : State) (v : Nat) (rest : List Event), s.inbox = .regWrite 0 v :: rest →
    step s = exec (decodeCommand (BitVec.ofNat 8 (v % 256))) { s with inbox := rest }) ∧
  ∀ s : State, (s.readReg .status).extractLsb' 2 2 = 0 ∧ (s.readReg .status).extractLsb' 13 51 = 0 ∧
    ∀ r, r = .addrDst ∨ r = .addrSrc ∨ r = .addrPath1 ∨ r = .addrPath2 → (s.readReg r).extractLsb' 57 7 = 0

/-- R43, R41: an index outside its space reads 0 and ignores writes; a write inside `PBUF` while idle writes that octet
and no other. -/
def Obligations.BufferAccessesStayInBounds : Prop :=
  (∀ (s : State) (i : Nat), (256 ≤ i → s.octet .pbuf i = 0) ∧ (288 ≤ i → s.octet .fbuf i = 0) ∧
    (15 ≤ i → s.octet .b91out i = 0)) ∧
  (∀ (s : State) (i : Nat) (b : Byte) (rest : List Event), s.busy = false → s.inbox = .pbufWrite i b :: rest → 256 ≤ i →
    step s = .next { s with inbox := rest }) ∧
  ∀ (s : State) (i : Nat) (b : Byte) (rest : List Event), s.busy = false → s.inbox = .pbufWrite i b :: rest → i < 256 →
    ∃ t, step s = .next t ∧ t.octet .pbuf i = b ∧ (∀ j, j ≠ i → t.octet .pbuf j = s.octet .pbuf j) ∧
      SameBuf s t .fbuf ∧ SameBuf s t .b91out ∧ SameRegs s t [] ∧ SameModulator s t ∧ t.seq = s.seq

/-- R45: a read, of any register or octet, at any time, changes nothing but the record of what was read, and a listed
number reads as its register; a write of a
register other than `CMD`, done twice, is done once. -/
def Obligations.ReadsChangeNothingAndWritesAreIdempotent : Prop :=
  (∀ (s : State) (n : Nat) (r : Reg), regOfNumber n = some r → s.readNumber n = s.readReg r) ∧
  (∀ (s : State) (n : Nat) (rest : List Event), s.inbox = .regRead n :: rest →
    step s = .next { s with inbox := rest, reads := s.reads ++ [s.readNumber n] }) ∧
  (∀ (s : State) (sp : BufSpace) (i : Nat) (rest : List Event), s.inbox = .bufRead sp i :: rest →
    step s = .next { s with inbox := rest, reads := s.reads ++ [(s.octet sp i).zeroExtend 64] }) ∧
  ∀ (s t u : State) (n v : Nat) (rest : List Event), regOfNumber n ≠ some .cmd →
    s.inbox = .regWrite n v :: .regWrite n v :: rest → step s = .next t → step t = .next u →
    u = { t with inbox := rest }

/-- R48: while busy a write of a register, `CMD` among them, or of `PBUF` is dropped and sets `OVERRUN`; reads return
current values; every writable register, `FLEN`, `PBUF` and `FBUF` are stable for as long as the block stays busy. -/
def Obligations.WhileBusyTheInputsBelongToTheTransmission : Prop :=
  (∀ (s : State) (n v : Nat) (rest : List Event) (r : Reg), s.busy = true → regOfNumber n = some r →
    s.inbox = .regWrite n v :: rest → step s = .next { s with inbox := rest, overrun := true }) ∧
  (∀ (s : State) (i : Nat) (b : Byte) (rest : List Event), s.busy = true → i < 256 →
    s.inbox = .pbufWrite i b :: rest → step s = .next { s with inbox := rest, overrun := true }) ∧
  (∀ (s : State) (n : Nat) (rest : List Event), s.busy = true → s.inbox = .regRead n :: rest →
    step s = .next { s with inbox := rest, reads := s.reads ++ [s.readNumber n] } ∧
    ∀ r, regOfNumber n = some r → s.readNumber n = s.readReg r) ∧
  (∀ (s : State) (sp : BufSpace) (i : Nat) (rest : List Event), s.busy = true → s.inbox = .bufRead sp i :: rest →
    step s = .next { s with inbox := rest, reads := s.reads ++ [(s.octet sp i).zeroExtend 64] }) ∧
  ∀ s t : State, s.busy = true → step s = .next t → t.busy = true →
    SameRegs s t [.status] ∧ SameBuf s t .pbuf ∧ SameBuf s t .fbuf

/-- R172, "any host write" (log 8, the model's reading where R19 and R43 could be read otherwise): while busy every host
write sets `OVERRUN`, one to an unlisted number or index too, and leaves the transmission as it is; a command word of any
kind is not decoded. -/
def Obligations.AnyHostWriteWhileBusyIsAnOverrun : Prop :=
  (∀ (s : State) (e : Event) (rest : List Event), s.busy = true → s.inbox = e :: rest →
    ((∃ n v, e = .regWrite n v) ∨ ∃ i b, e = .pbufWrite i b) →
    step s = .next { s with inbox := rest, overrun := true }) ∧
  ∀ (i : Instr) (s : State), s.busy = true → exec i s = .next { s with overrun := true }

/-- R211: once set, `OVERRUN` stays set through every step but a reset event. -/
def Obligations.OverrunIsStickyUntilReset : Prop :=
  ∀ s t : State, s.overrun = true → step s = .next t → (∀ rest, s.inbox ≠ .reset :: rest) → t.overrun = true

/-- R204: no step records OUT_OF_MEMORY. -/
def Obligations.OutOfMemoryIsNeverRecorded : Prop :=
  ∀ s t : State, s.err ≠ .outOfMemory → step s = .next t → t.err ≠ .outOfMemory

/-- R61, R207: a command while idle does the same whatever the command before it left in `DONE`, `ERR`, `EINFO` and
`WARN_RATE`. -/
def Obligations.ACommandForgetsTheOutcomeBefore : Prop :=
  ∀ (i : Instr) (s : State) (d w : Bool) (e : ErrorCode) (n : BitVec 3), s.busy = false →
    exec i { s with done := d, err := e, einfo := n, warnRate := w } = exec i s

/-! ## Base-91 -/

/-- R91: the result has `width` characters, character `i` is `33 +` the digit `(value div 91^(width-1-i)) mod 91`, and so
lies in 0x21 to 0x7B. -/
def Obligations.Base91IsTheClosedForm : Prop :=
  ∀ (value width : Nat), (base91 value width).length = width ∧
    ∀ i, i < width → ∃ c, (base91 value width)[i]? = some c ∧ c.toNat = 33 + value / 91 ^ (width - 1 - i) % 91 ∧
      0x21 ≤ c.toNat ∧ c.toNat ≤ 0x7B

/-- R92: a value too large for the width keeps its low-order digits; one that fits is read back whole; and no flag
records which it was: B91ENC always ends with DONE alone. -/
def Obligations.Base91TruncatesSilently : Prop :=
  (∀ (value width : Nat), base91 value width = base91 (value % 91 ^ width) width) ∧
  (∀ (value width : Nat), base91Value (base91 value width) = value % 91 ^ width) ∧
  (∀ value : Nat, base91Value (base91 value 4) = value ↔ value ≤ 68574960) ∧
  ∀ s : State, s.busy = false → ∃ t, exec .b91enc s = .next t ∧ CommandOutcome t true .none 0 false

/-- R93: width 0 gives nothing; from width 5 on no 32-bit value is truncated; from width 6 on the leading characters are
all `!`. -/
def Obligations.Base91WidthCorners : Prop :=
  ∀ value : Nat, base91 value 0 = [] ∧
    (value < 2 ^ 32 → ∀ width, 5 ≤ width → base91Value (base91 value width) = value ∧
      base91 value width = List.replicate (width - 5) 0x21 ++ base91 value 5)

/-- R90: B91ENC while idle completes: the characters of `B91_VALUE` stand in `B91OUT[0 .. B91_WIDTH-1]`, the other octets
of `B91OUT` and everything else but `STATUS` are as before. -/
def Obligations.B91encStoresTheCharacters : Prop :=
  ∀ s : State, s.busy = false →
    ∃ t, exec .b91enc s = .next t ∧
      (∀ i, i < s.b91Width.toNat → t.octet .b91out i =
        BitVec.ofNat 8 (33 + s.b91Value.toNat / 91 ^ (s.b91Width.toNat - 1 - i) % 91)) ∧
      (∀ i, s.b91Width.toNat ≤ i → t.octet .b91out i = s.octet .b91out i) ∧
      CommandOutcome t true .none 0 false ∧ t.overrun = s.overrun ∧ t.seq = .idle ∧
      SameRegs s t [.status] ∧ SameBuf s t .pbuf ∧ SameBuf s t .fbuf ∧ SameModulator s t ∧ SameOutside s t

/-! ## The frame -/

/-- R67, with the octets of R64 and R65: the layout of a frame, octet by octet, and its length. -/
def Obligations.TheFrameIsLaidOutAsTheTable : Prop :=
  ∀ s : State, s.npath ≠ 3 →
    let P := s.npath.toNat
    let N := s.plen.toNat
    let char := fun (a : AddrReg) (i : Nat) => if i < a.clen.toNat then a.char i else 0x20
    let group := fun (start : Nat) (a : AddrReg) (h : Nat) (l : Nat) =>
      (∀ i, i < 6 → ∃ c, (frame s)[start + i]? = some c ∧ c.toNat = (char a i).toNat * 2 % 256) ∧
      ∃ c, (frame s)[start + 6]? = some c ∧ c.toNat = h * 128 + 96 + a.ssid.toNat * 2 + l
    (frame s).length = 18 + 7 * P + N ∧
    group 0 s.addrDst 0 0 ∧
    group 7 s.addrSrc 0 (if P = 0 then 1 else 0) ∧
    (1 ≤ P → group 14 s.addrPath1 s.addrPath1.h.toNat (if P = 1 then 1 else 0)) ∧
    (P = 2 → group 21 s.addrPath2 s.addrPath2.h.toNat 1) ∧
    (frame s)[14 + 7 * P]? = some ctrlUi ∧ (frame s)[15 + 7 * P]? = some pidNol3 ∧
    (∀ i, i < N → (frame s)[16 + 7 * P + i]? = some (s.octet .pbuf i)) ∧
    (∃ c, (frame s)[16 + 7 * P + N]? = some c ∧ c.toNat = (fcs ((frame s).take (16 + 7 * P + N))).toNat % 256) ∧
    ∃ c, (frame s)[17 + 7 * P + N]? = some c ∧ c.toNat = (fcs ((frame s).take (16 + 7 * P + N))).toNat / 256

/-- R66 (the spec derives it): in the address field bit 0 is 1 in the last octet and in no other, so a reader finds its
end. -/
def Obligations.OnlyTheLastAddressOctetIsMarked : Prop :=
  ∀ s : State, s.npath ≠ 3 → (addressField s).length = 14 + 7 * s.npath.toNat ∧
    ∀ i, i < 14 + 7 * s.npath.toNat →
      ((addressField s)[i]?).map (fun o => o.getLsbD 0) = some (decide (i + 1 = 14 + 7 * s.npath.toNat))

/-- R111 (the spec derives it): a receiver gets the callsign and the SSID back from the seven octets, for 1 to 6
characters without bit 7 whose last is no space. -/
def Obligations.AddressesRoundTrip : Prop :=
  ∀ (a : AddrReg) (isPath : Bool) (l : BitVec 1), 1 ≤ a.clen.toNat → a.clen.toNat ≤ 6 →
    (∀ i, i < a.clen.toNat → (a.char i).toNat < 0x80) → a.char (a.clen.toNat - 1) ≠ 0x20 →
    receivedCall (addrOctets a isPath l) = (List.range a.clen.toNat).map a.char ∧
    ((addrOctets a isPath l)[6]?).map (fun o => o.extractLsb' 1 4) = some a.ssid

/-- R11, R20, R102: the frame depends neither on characters at or beyond `CLEN`, nor on payload octets at or beyond
`PLEN`, nor on a path register that `NPATH` does not use, nor on anything that is no descriptor. -/
def Obligations.TheFrameReadsOnlyItsOperands : Prop :=
  ∀ s t : State,
    let sameCall := fun (a b : AddrReg) =>
      a.clen = b.clen ∧ a.ssid = b.ssid ∧ ∀ i, i < a.clen.toNat → a.char i = b.char i
    t.npath = s.npath → t.plen = s.plen → sameCall s.addrDst t.addrDst → sameCall s.addrSrc t.addrSrc →
    (1 ≤ s.npath → sameCall s.addrPath1 t.addrPath1 ∧ s.addrPath1.h = t.addrPath1.h) →
    (s.npath = 2 → sameCall s.addrPath2 t.addrPath2 ∧ s.addrPath2.h = t.addrPath2.h) →
    (∀ i, i < s.plen.toNat → t.octet .pbuf i = s.octet .pbuf i) → frame t = frame s

/-- R108: BUILD with a valid descriptor while idle completes: the frame stands in `FBUF` from index 0, `FLEN` reads as its
length `18 + 7*NPATH + PLEN`, the octets of `FBUF` from there on and everything else but `STATUS` are as before. -/
def Obligations.BuildAssemblesTheFrame : Prop :=
  ∀ s : State, s.busy = false → DescriptorOk s →
    ∃ t, exec .build s = .next t ∧
      (frame s).length = 18 + 7 * s.npath.toNat + s.plen.toNat ∧ (t.readReg .flen).toNat = (frame s).length ∧
      (∀ i, i < (frame s).length → (frame s)[i]? = some (t.octet .fbuf i)) ∧
      (∀ i, (frame s).length ≤ i → t.octet .fbuf i = s.octet .fbuf i) ∧
      CommandOutcome t true .none 0 false ∧ t.overrun = s.overrun ∧ t.seq = .idle ∧
      SameRegs s t [.status, .flen] ∧ SameBuf s t .pbuf ∧ SameBuf s t .b91out ∧ SameModulator s t ∧ SameOutside s t

/-- R110, R106, R107: BUILD and TRANSMIT while idle report the first check that fails, in this order, and change nothing
but the outcome fields of `STATUS`. -/
def Obligations.DescriptorErrorsAreReportedInOrder : Prop :=
  ∀ (i : Instr) (s : State), (i = .build ∨ i = .transmit) → s.busy = false →
    let rejected := fun (e : ErrorCode) (info : BitVec 3) =>
      exec i s = .next { s with done := false, err := e, einfo := info, warnRate := false }
    (s.npath = 3 → rejected .badAddr 4) ∧
    (s.npath ≠ 3 → BadAddress s.addrDst → rejected .badAddr 0) ∧
    (s.npath ≠ 3 → ¬BadAddress s.addrDst → BadAddress s.addrSrc → rejected .badAddr 1) ∧
    (s.npath ≠ 3 → ¬BadAddress s.addrDst → ¬BadAddress s.addrSrc → 1 ≤ s.npath → BadAddress s.addrPath1 →
      rejected .badAddr 2) ∧
    (s.npath = 2 → ¬BadAddress s.addrDst → ¬BadAddress s.addrSrc → ¬BadAddress s.addrPath1 → BadAddress s.addrPath2 →
      rejected .badAddr 3) ∧
    (s.npath ≠ 3 → ¬BadAddress s.addrDst → ¬BadAddress s.addrSrc → (1 ≤ s.npath → ¬BadAddress s.addrPath1) →
      (s.npath = 2 → ¬BadAddress s.addrPath2) → 256 < s.plen.toNat → rejected .frameTooLarge 0)

/-! ## The check sequence -/

/-- R121, R122 (the loop is from the spec's general knowledge, G2): feeding a list of octets is feeding its bits, bit 0
of each octet first, one at a time from 0xFFFF. -/
def Obligations.TheCrcTakesOneBitAtATime : Prop :=
  ∀ octets : List Byte, crcReg octets =
    (bits octets).foldl (fun (crc : Half) (d : Bool) =>
      if crc.getLsbD 0 != d then (crc >>> 1) ^^^ 0x8408 else crc >>> 1) 0xFFFF

/-- R124 (the spec derives it): feeding the check octets after the data leaves 0xF0B8 in the register. -/
def Obligations.TheCheckSequenceLeavesTheResidue : Prop :=
  ∀ octets : List Byte, crcReg (octets ++ fcsOctets octets) = 0xF0B8

/-! ## The bit stream -/

/-- R130, R133, R134: the bits of octets, bit 0 of each first; a stream is the flags 01111110, which are not stuffed,
around the stuffed bits of the frame. -/
def Obligations.TheStreamIsFlagsFrameFlags : Prop :=
  (∀ octets : List Byte, (bits octets).length = 8 * octets.length ∧
    ∀ i b, octets[i]? = some b → ∀ j, j < 8 → (bits octets)[8 * i + j]? = some (b.getLsbD j)) ∧
  ∀ (pre rest : Nat) (octets : List Byte),
    let flag := [false, true, true, true, true, true, true, false]
    stream pre octets rest =
      (List.replicate pre flag).flatten ++ stuff (bits octets) ++ (List.replicate rest flag).flatten

/-- R131: `stuff` is the loop of the rule, which emits each bit, counts the 1s emitted since the last 0, and at the fifth
emits a 0 and counts anew. -/
def Obligations.StuffingIsTheLoopOfTheRule : Prop :=
  ∀ l : List Bool, stuff l =
    (l.foldl (fun (st : List Bool × Nat) (b : Bool) =>
      if b then (if st.2 + 1 = 5 then (st.1 ++ [b] ++ [false], 0) else (st.1 ++ [b], st.2 + 1)) else (st.1 ++ [b], 0))
      ([], 0)).1

/-- R136 (the spec derives it): a compliant receiver gets the bits back. -/
def Obligations.UnstuffingInvertsStuffing : Prop := ∀ l : List Bool, unstuffFrom 0 (stuff l) = l

/-- R138 (the spec derives it): how many bits are inserted. -/
def Obligations.StuffingAddsAtMostAFifth : Prop :=
  ∀ l : List Bool, l.length ≤ (stuff l).length ∧ (stuff l).length ≤ l.length + l.length / 5 ∧
    ((∀ p r, l ≠ p ++ List.replicate 5 true ++ r) → stuff l = l) ∧
    ∀ n, (stuff (List.replicate n true)).length = n + n / 5

/-- R137 (the spec derives it): in the data five 1s are always followed by a 0, and in a whole stream six 1s stand
exactly once in each flag and nowhere else. -/
def Obligations.SixOnesStandInFlagsOnly : Prop :=
  (∀ l p r : List Bool, stuff l = p ++ List.replicate 5 true ++ r → ∃ r', r = false :: r') ∧
  ∀ (pre rest : Nat) (octets : List Byte),
    let T := stream pre octets rest
    ((List.range T.length).filter fun i => (T.drop i).take 6 == List.replicate 6 true).length = pre + rest

/-- R141: the levels are as many as the bits, and the final level is the starting one inverted once for each 0 bit. -/
def Obligations.NrziInvertsOnceForEachZero : Prop :=
  ∀ (l : List Bool) (start : Bool), (nrzi l start).1.length = l.length ∧
    (nrzi l start).2 = (start ^^ decide ((l.filter fun b => !b).length % 2 = 1)) ∧
    ∀ i b, l[i]? = some b → ∀ before, (if i = 0 then some start else (nrzi l start).1[i - 1]?) = some before →
      (nrzi l start).1[i]? = some (if b then before else !before)

/-- R144 (the spec derives it): decoding from the same starting level gives the bits back. -/
def Obligations.NrziDecodingInvertsEncoding : Prop :=
  ∀ (l : List Bool) (start : Bool), nrziDecode start (nrzi l start).1 = l

/-! ## The tone -/

/-- R152 with the rounding of R154 and the clamp of R155: the sample is the exact real sine times the amplitude, rounded
to nearest with ties away from zero, then clamped (log 9: it is computed in integers). -/
def Obligations.TheSampleIsTheRoundedClampedSine : Prop :=
  ∀ (A : Half) (p : ℚ),
    let x : ℝ := (A.toNat : ℝ) * Real.sin (2 * Real.pi * (p : ℝ))
    (sample A p).toInt = max (-32768) (min 32767 (if 0 ≤ x then ⌊x + 1 / 2⌋ else -⌊-x + 1 / 2⌋))

/-- R161 (the spec derives it): the values at the quarters and twelfths of a turn, the symmetries and the bound. -/
def Obligations.TheSampleHasTheNamedProperties : Prop :=
  ∀ (A : Half) (p : ℚ),
    (sample A 0).toInt = 0 ∧ (sample A (1 / 2)).toInt = 0 ∧
    (sample A (1 / 4)).toInt = min (A.toNat : ℤ) 32767 ∧ (sample A (3 / 4)).toInt = -min (A.toNat : ℤ) 32768 ∧
    (sample A (1 / 12)).toInt = min ((A.toNat + 1 : ℤ) / 2) 32767 ∧
    (sample A (5 / 12)).toInt = min ((A.toNat + 1 : ℤ) / 2) 32767 ∧
    (sample A (7 / 12)).toInt = -((A.toNat + 1 : ℤ) / 2) ∧ (sample A (11 / 12)).toInt = -((A.toNat + 1 : ℤ) / 2) ∧
    (A.toNat ≤ 32767 → (sample A (1 - p)).toInt = -(sample A p).toInt) ∧
    (-32767 ≤ (sample A p).toInt → (sample A p).toInt ≤ 32766 → (sample A (1 - p)).toInt = -(sample A p).toInt) ∧
    sample A (1 / 2 - p) = sample A p ∧
    |(sample A p).toInt| ≤ min (A.toNat : ℤ) 32768

/-- R157: the lengths of the symbols of a transmission, their totals, and the remainder that is carried. -/
def Obligations.SymbolLengthsCarryTheRemainder : Prop :=
  ∀ (S B M : Nat), 0 < B →
    (symbolLengths S B M 0).length = M ∧ (symbolLengths S B M 0).sum = M * S / B ∧
    (∀ m, m < M → ∃ n, (symbolLengths S B M 0)[m]? = some n ∧ n = (m + 1) * S / B - m * S / B ∧
      (n = S / B ∨ n = S / B + 1) ∧ (S % B = 0 → n = S / B)) ∧
    ∀ tacc, (symbolLength tacc S B).2 < B

/-- R159 (the spec derives it): a stream of `N` bits produces `floor(N * S / B)` samples. -/
def Obligations.ATransmissionHasTheStatedSampleCount : Prop :=
  ∀ (s : State) (levels : List Bool) (p : ℚ), s.bitRate ≠ 0 →
    (synth s levels 0 p).1.length = levels.length * s.sampleRate.toNat / s.bitRate.toNat

/-! ## Commands of the sequencer -/

/-- R171: MODRST while idle completes: `phase` is 0 and `level` is 1, `DONE` is set, and nothing else changes but the
outcome fields that every command clears. -/
def Obligations.ModrstReinitialisesTheModulator : Prop :=
  ∀ s : State, s.busy = false →
    exec .modrst s = .next { s with phase := 0, level := true, done := true, err := .none, einfo := 0, warnRate := false }

/-- R62: an illegal opcode while idle records BAD_CMD and changes nothing else; while busy it is not decoded. -/
def Obligations.IllegalOpcodesRecordBadCmd : Prop :=
  (∀ (op : Byte) (s : State), s.busy = false → op = 0x00 ∨ 0x05 ≤ op.toNat →
    exec (.illegal op) s = .next { s with done := false, err := .badCmd, einfo := 0, warnRate := false }) ∧
  (∀ (s : State) (op : Byte) (v : Nat) (rest : List Event), s.busy = false → op = 0x00 ∨ 0x05 ≤ op.toNat →
    s.inbox = .regWrite 0 v :: rest → BitVec.ofNat 8 v = op →
    step s = .next { s with inbox := rest, done := false, err := .badCmd, einfo := 0, warnRate := false }) ∧
  ∀ (s : State) (v : Nat) (rest : List Event), s.busy = true → s.inbox = .regWrite 0 v :: rest →
    step s = .next { s with inbox := rest, overrun := true }

/-- The model's choice (log 1): a data pattern of the table offered as a command word does what R61 and R62 say of its
octet. PID, flag, SSID and base-91 octets are illegal opcodes; the control octet is 0x03, TRANSMIT; a callsign octet is
BUILD or MODRST for the characters 1 and 2, else illegal. -/
def Obligations.DataPatternsActAsTheirOctets : Prop :=
  ∀ s : State, s.busy = false →
    let badCmd : Host.Outcome State Fault Refusal :=
      .next { s with done := false, err := .badCmd, einfo := 0, warnRate := false }
    exec .dataPidNol3 s = badCmd ∧ exec .dataFlag s = badCmd ∧
    (∀ h ssid l, exec (.dataSsidOctet h ssid l) s = badCmd) ∧
    (∀ d : BitVec 7, 0x21 ≤ d.toNat → exec (.dataB91Char d) s = badCmd) ∧
    exec .dataCtrlUi s = exec .transmit s ∧
    (DescriptorOk s → RatesOk s → ∃ t f, exec .dataCtrlUi s = .next t ∧ t.seq = .stream f) ∧
    exec (.dataCallsignOctet 1) s = exec .build s ∧ exec (.dataCallsignOctet 2) s = exec .modrst s ∧
    ∀ c : BitVec 7, c ≠ 1 → c ≠ 2 → exec (.dataCallsignOctet c) s = badCmd

/-- R174: TRANSMIT with a valid descriptor and a rate of 0, while idle, records BAD_CONFIG, the sample rate first, and
changes nothing else; BUILD does not run this check. -/
def Obligations.ZeroRatesAreRefused : Prop :=
  ∀ s : State, s.busy = false → DescriptorOk s →
    (s.sampleRate = 0 →
      exec .transmit s = .next { s with done := false, err := .badConfig, einfo := 0, warnRate := false }) ∧
    (s.sampleRate ≠ 0 → s.bitRate = 0 →
      exec .transmit s = .next { s with done := false, err := .badConfig, einfo := 1, warnRate := false }) ∧
    (s.sampleRate ≠ 0 → s.bitRate ≠ 0 → ∃ t f, exec .transmit s = .next t ∧ t.seq = .stream f) ∧
    ∃ t, exec .build s = .next t ∧ t.done = true

/-- R175, R158: TRANSMIT with a valid descriptor and rates, while idle, is accepted: `FBUF` and `FLEN` hold the frame,
the stuffed stream is that of `FBUF` and the flag counts, the position is at the start, `BUSY` is 1, the warning says
whether the rates divide, `phase` and `level` are not initialised, and nothing else changes. Otherwise the block stays
idle with an error, and nothing but `STATUS` changes. -/
def Obligations.TransmitIsAccepted : Prop :=
  (∀ s : State, s.busy = false → DescriptorOk s → RatesOk s →
    ∃ t f, exec .transmit s = .next t ∧ t.seq = .stream f ∧
      f.T = stream s.preamble.toNat (t.octets .fbuf (t.readReg .flen).toNat) s.rest.toNat ∧
      f.k = 0 ∧ f.j = 0 ∧ f.tacc = 0 ∧ f.cbuf = [] ∧
      t.octets .fbuf (t.readReg .flen).toNat = frame s ∧ (t.readReg .flen).toNat = frameLength s ∧
      (∀ i, frameLength s ≤ i → t.octet .fbuf i = s.octet .fbuf i) ∧
      CommandOutcome t false .none 0 (decide (s.sampleRate.toNat % s.bitRate.toNat ≠ 0)) ∧ t.overrun = s.overrun ∧
      SameRegs s t [.status, .flen] ∧ SameBuf s t .pbuf ∧ SameBuf s t .b91out ∧ SameModulator s t ∧ SameOutside s t) ∧
  ∀ s : State, s.busy = false → ¬(DescriptorOk s ∧ RatesOk s) →
    ∃ t, exec .transmit s = .next t ∧ t.seq = .idle ∧ t.done = false ∧ t.err ≠ .none ∧ t.warnRate = false ∧
      SameRegs s t [.status] ∧ (∀ sp, SameBuf s t sp) ∧ SameModulator s t ∧ SameOutside s t

/-! ## A running transmission -/

/-- R177, with R140, R150 and R157: the symbol start. -/
def Obligations.SymbolStartTakesTheNextBit : Prop :=
  ∀ (s s' : State) (f : InFlight) (b : Bool), BlocksTurn s s' → s.seq = .stream f → f.cbuf.length ≠ s.chunkMax →
    f.j = 0 → f.T[f.k]? = some b →
    let level := if b then s.level else !s.level
    step s = .next { s' with
      level := level
      seq := .stream { f with
        freq := if level then s.mark else s.space
        j := (f.tacc + s.sampleRate.toNat) / s.bitRate.toNat
        tacc := (f.tacc + s.sampleRate.toNat) % s.bitRate.toNat
        k := f.k + 1 } }

/-- R178, R153: the sample step advances the phase by `freq / S` turns, reduced to its fraction, and appends the sample
at the new phase. -/
def Obligations.SampleStepAdvancesThenSamples : Prop :=
  ∀ (s s' : State) (f : InFlight), BlocksTurn s s' → s.seq = .stream f → f.cbuf.length ≠ s.chunkMax → 0 < f.j →
    let phase : ℚ := Int.fract (s.phase + (f.freq.toNat : ℚ) / (s.sampleRate.toNat : ℚ))
    step s = .next { s' with
      phase := phase
      seq := .stream { f with cbuf := f.cbuf ++ [sample s.ampl phase], j := f.j - 1 } }

/-- R181: a chunk is offered when it is full, or when it holds the last samples; without an answer the block waits; `ok`
empties the chunk buffer and nothing else of the block changes; `fail` aborts. -/
def Obligations.AFlushWaitsForTheSinksAnswer : Prop :=
  ∀ (s s' : State) (f : InFlight), BlocksTurn s s' → s.seq = .stream f → Offers s f →
    (s.sinkAnswers = [] → step s = .next s') ∧
    (∀ answers, s.sinkAnswers = .ok :: answers →
      step s = .next { s' with
        sinkAnswers := answers, sinkLog := s.sinkLog ++ [(f.cbuf, .ok)], seq := .stream { f with cbuf := [] } }) ∧
    ∀ answers, s.sinkAnswers = .fail :: answers → ∃ t, step s = .next t ∧ t.seq = .idle ∧ t.err = .sinkFail

/-- R182, R205: a `fail` drops the chunk, records SINK_FAIL and ends the transmission; `phase`, `level`, `FBUF` and
`FLEN` stay, and what was delivered before stays delivered. -/
def Obligations.ARefusedChunkAbortsTheTransmission : Prop :=
  ∀ (s s' : State) (f : InFlight) (answers : List SinkAnswer), BlocksTurn s s' → s.seq = .stream f → Offers s f →
    s.sinkAnswers = .fail :: answers →
    ∃ t, step s = .next t ∧
      t = { s' with
        sinkAnswers := answers, sinkLog := s.sinkLog ++ [(f.cbuf, .fail)], seq := .idle, err := .sinkFail, einfo := 0 } ∧
      t.delivered = s.delivered

/-- R179, R176 line 5: with every symbol started, every sample produced and every chunk answered, the block completes:
idle, DONE, all else as it was. -/
def Obligations.TheLastStepCompletes : Prop :=
  ∀ (s s' : State) (f : InFlight), BlocksTurn s s' → s.seq = .stream f → f.cbuf = [] → f.j = 0 → f.T.length ≤ f.k →
    step s = .next { s' with seq := .idle, done := true }

/-- R12, R214: idle, the block takes no step of its own. -/
def Obligations.AnIdleBlockStaysAsItIs : Prop :=
  ∀ s s' : State, BlocksTurn s s' → s.seq = .idle → step s = .next s'

/-- R24, R156: `phase` changes only by the advance of a sample step, by MODRST and by reset, which set it to 0; in
particular no symbol start, no TRANSMIT and no flush moves it. -/
def Obligations.OnlySamplesModrstAndResetMoveThePhase : Prop :=
  ∀ s t : State, step s = .next t →
    t.phase = s.phase ∨
    (∃ s' f, BlocksTurn s s' ∧ s.seq = .stream f ∧ 0 < f.j ∧
      t.phase = Int.fract (s.phase + (f.freq.toNat : ℚ) / (s.sampleRate.toNat : ℚ))) ∨
    (t.phase = 0 ∧ ((∃ rest, s.inbox = .reset :: rest) ∨ (s.busy = false ∧ CommandNext s 0x04)))

/-- R25, R143: `level` changes only by the symbol start of a 0 bit, by MODRST and by reset, which set it to 1. -/
def Obligations.OnlyZeroBitsModrstAndResetMoveTheLevel : Prop :=
  ∀ s t : State, step s = .next t →
    t.level = s.level ∨
    (∃ s' f, BlocksTurn s s' ∧ s.seq = .stream f ∧ f.j = 0 ∧ f.T[f.k]? = some false ∧ t.level = !s.level) ∨
    (t.level = true ∧ ((∃ rest, s.inbox = .reset :: rest) ∨ (s.busy = false ∧ CommandNext s 0x04)))

/-- R172: the transitions of the sequencer and no others; within STREAM the stream stays and the position only moves
forward. -/
def Obligations.TheSequencerHasTheseTransitions : Prop :=
  (∀ (s t : State) (f : InFlight), s.seq = .idle → step s = .next t → t.seq = .stream f →
    CommandNext s 0x03 ∧ DescriptorOk s ∧ RatesOk s) ∧
  (∀ (s t : State) (f : InFlight), s.seq = .stream f → step s = .next t → t.seq = .idle →
    (∃ rest, s.inbox = .reset :: rest) ∨
    ((∃ s', BlocksTurn s s') ∧ f.cbuf = [] ∧ f.j = 0 ∧ f.T.length ≤ f.k ∧ t.done = true ∧ t.err = s.err) ∨
    ((∃ s', BlocksTurn s s') ∧ Offers s f ∧ (∃ answers, s.sinkAnswers = .fail :: answers) ∧ t.err = .sinkFail)) ∧
  ∀ (s t : State) (f f' : InFlight), s.seq = .stream f → step s = .next t → t.seq = .stream f' →
    f'.T = f.T ∧ (f'.k = f.k ∧ f'.j ≤ f.j ∨ f'.k = f.k + 1 ∧ f.k < f.T.length)

/-- R180: every chunk answered is not empty and has at most `CHUNK_MAX` samples; one with fewer is the last of its
transmission. -/
def Obligations.ChunksAreFullButTheLast : Prop :=
  ∀ s t : State, Inv s → step s = .next t →
    t.sinkLog = s.sinkLog ∨
    ∃ f answer, s.seq = .stream f ∧ t.sinkLog = s.sinkLog ++ [(f.cbuf, answer)] ∧
      1 ≤ f.cbuf.length ∧ f.cbuf.length ≤ s.chunkMax ∧
      (f.cbuf.length < s.chunkMax → f.j = 0 ∧ f.k = f.T.length)

/-- R170, R160, R179: through every step of a running transmission that stays running or completes, one of the block or
one that takes a host access, what was delivered, what waits in the chunk buffer and what is still to be produced make
the same samples, with the same final phase and level; at completion all of it is delivered. So the chunks of a completed transmission are `X = Synth(Nrzi(T))`. -/
def Obligations.TheOutputIsWhatTheStreamDetermines : Prop :=
  ∀ (s t : State) (f : InFlight), s.seq = .stream f → s.done = false → step s = .next t →
    (∀ f', t.seq = .stream f' →
      t.delivered ++ f'.cbuf ++ (t.remaining f').1 = s.delivered ++ f.cbuf ++ (s.remaining f).1 ∧
      (t.remaining f').2 = (s.remaining f).2 ∧ t.finalLevel f' = s.finalLevel f) ∧
    (t.seq = .idle → t.done = true →
      t.delivered = s.delivered ++ f.cbuf ++ (s.remaining f).1 ∧ t.phase = (s.remaining f).2 ∧
      t.level = s.finalLevel f)

/-- R170, R179, R246: left to itself, with a sink that answers `ok` to as many chunks as there are to come, a running
transmission ends after one step for each sample, symbol and chunk to come and one more, done and without an error of its
own, with everything delivered and the modulator at its final state. -/
def Obligations.ATransmissionCompletesWhenTheSinkAccepts : Prop :=
  ∀ (s : State) (f : InFlight) (n : Nat) (more : List SinkAnswer), s.seq = .stream f → s.inbox = [] →
    f.cbuf.length ≤ s.chunkMax →
    n = (f.cbuf.length + (s.remaining f).1.length + s.chunkMaxLess1) / s.chunkMax →
    s.sinkAnswers = List.replicate n .ok ++ more →
    ∃ t, Host.Core.run Sys2Proof.core ((s.remaining f).1.length + (f.T.length - f.k) + n + 1) s = .next t ∧
      t.seq = .idle ∧ t.done = true ∧ t.err = s.err ∧ t.sinkAnswers = more ∧
      t.delivered = s.delivered ++ f.cbuf ++ (s.remaining f).1 ∧ t.phase = (s.remaining f).2 ∧
      t.level = s.finalLevel f

/-- R171, R248: after MODRST the samples of an accepted TRANSMIT are a function of the descriptor, the payload and the
configuration alone, whatever went before. -/
def Obligations.AfterModrstTheSamplesDependOnTheInputsAlone : Prop :=
  ∀ (s₁ s₂ a₁ a₂ t₁ t₂ : State) (f₁ f₂ : InFlight), s₁.busy = false → s₂.busy = false →
    SameRegs s₁ s₂ [.status, .flen, .b91Value, .b91Width] →
    (∀ i, i < s₁.plen.toNat → s₂.octet .pbuf i = s₁.octet .pbuf i) →
    exec .modrst s₁ = .next a₁ → exec .modrst s₂ = .next a₂ →
    exec .transmit a₁ = .next t₁ → exec .transmit a₂ = .next t₂ →
    t₁.seq = .stream f₁ → t₂.seq = .stream f₂ →
    t₁.remaining f₁ = t₂.remaining f₂ ∧ t₁.finalLevel f₁ = t₂.finalLevel f₂
end

