-- ==== Sys2Proof/Laws/Memory.lean ====
section
/-! SUPPORT. The laws of the buffers: reading after writing, and that writing keeps the canonical form. -/

namespace Sys2Proof.Machine

/-- Reading where an octet was just written gives it. -/
@[simp] theorem Memory.read_write_same (m : Memory) (i : Nat) (v : Byte) : Memory.read (Memory.write m i v) i = some v := by
  induction m with
  | nil => simp [Memory.write, Memory.read]
  | cons c m ih =>
    obtain ⟨a, b⟩ := c
    simp only [Memory.write]
    split_ifs with h1 h2
    · simp [Memory.read]
    · simp [Memory.read]
    · simp [Memory.read, Ne.symm h2, ih]

/-- Writing one octet leaves every other alone. -/
theorem Memory.read_write_other (m : Memory) {i j : Nat} (v : Byte) (h : i ≠ j) :
    Memory.read (Memory.write m i v) j = Memory.read m j := by
  induction m with
  | nil => simp [Memory.write, Memory.read, h]
  | cons c m ih =>
    obtain ⟨a, b⟩ := c
    simp only [Memory.write]
    split_ifs with h1 h2
    · simp [Memory.read, h]
    · subst h2; simp [Memory.read, h]
    · simp [Memory.read, ih]

/-- Reading after a list of octets was written from index `i` on. -/
theorem Memory.read_writeList (m : Memory) (i j : Nat) (bs : List Byte) :
    Memory.read (Memory.writeList m i bs) j = if i ≤ j ∧ j < i + bs.length then bs[j - i]? else Memory.read m j := by
  induction bs generalizing m i with
  | nil => simp [Memory.writeList]
  | cons b bs ih =>
    rw [Memory.writeList, ih]
    rcases Nat.lt_trichotomy j i with h | h | h
    · rw [if_neg (by omega), if_neg (by omega), Memory.read_write_other _ _ (by omega)]
    · subst h; simp
    · obtain ⟨d, rfl⟩ : ∃ d, j = i + 1 + d := ⟨j - (i + 1), by omega⟩
      rw [Memory.read_write_other _ _ (by omega)]
      have e1 : i + 1 + d - (i + 1) = d := by omega
      have e2 : i + 1 + d - i = d + 1 := by omega
      simp only [e1, e2, List.getElem?_cons_succ, List.length_cons]
      congr 1
      simp only [eq_iff_iff]
      omega

theorem Memory.wfIn_mono {lo lo' hi : Nat} {m : Memory} (h : Memory.wfIn lo hi m = true) (hl : lo' ≤ lo) :
    Memory.wfIn lo' hi m = true := by
  cases m with
  | nil => rfl
  | cons c m => simp only [Memory.wfIn, Bool.and_eq_true, decide_eq_true_eq] at h ⊢; exact ⟨⟨by omega, h.1.2⟩, h.2⟩

/-- Writing keeps the canonical form. -/
theorem Memory.wfIn_write {lo hi i : Nat} {m : Memory} (v : Byte) (h : Memory.wfIn lo hi m = true) (hlo : lo ≤ i)
    (hhi : i < hi) : Memory.wfIn lo hi (Memory.write m i v) = true := by
  induction m generalizing lo with
  | nil => simp [Memory.write, Memory.wfIn, hlo, hhi]
  | cons c m ih =>
    obtain ⟨a, b⟩ := c
    simp only [Memory.wfIn, Bool.and_eq_true, decide_eq_true_eq] at h
    simp only [Memory.write]
    split_ifs with h1 h2
    · simp only [Memory.wfIn, Bool.and_eq_true, decide_eq_true_eq]; exact ⟨by omega, by omega, h.2⟩
    · subst h2; simp only [Memory.wfIn, Bool.and_eq_true, decide_eq_true_eq]; exact ⟨by omega, h.2⟩
    · simp only [Memory.wfIn, Bool.and_eq_true, decide_eq_true_eq]; exact ⟨by omega, ih h.2 (by omega)⟩

theorem Memory.wf_write {size i : Nat} {m : Memory} (v : Byte) (h : Memory.wf size m = true) (hi : i < size) :
    Memory.wf size (Memory.write m i v) = true := Memory.wfIn_write v h (Nat.zero_le _) hi

/-- Writing a list of octets that fits keeps the canonical form. -/
theorem Memory.wf_writeList {size i : Nat} {m : Memory} (bs : List Byte) (h : Memory.wf size m = true)
    (hi : i + bs.length ≤ size) : Memory.wf size (Memory.writeList m i bs) = true := by
  induction bs generalizing m i with
  | nil => exact h
  | cons b bs ih =>
    simp only [List.length_cons] at hi
    exact ih (Memory.wf_write b h (by omega)) (by omega)

/-- A canonical buffer lists no index at or above its bound, or below its start. -/
theorem Memory.read_eq_none_of_wfIn {lo hi j : Nat} {m : Memory} (h : Memory.wfIn lo hi m = true) (hj : j < lo ∨ hi ≤ j) :
    Memory.read m j = none := by
  induction m generalizing lo with
  | nil => rfl
  | cons c m ih =>
    obtain ⟨a, b⟩ := c
    simp only [Memory.wfIn, Bool.and_eq_true, decide_eq_true_eq] at h
    simp only [Memory.read]
    rw [if_neg (by omega)]
    exact ih h.2 (by omega)

/-- Two canonical buffers that read alike are equal data. -/
theorem Memory.ext_of_wfIn {lo hi : Nat} {m n : Memory} (hm : Memory.wfIn lo hi m = true) (hn : Memory.wfIn lo hi n = true)
    (h : ∀ i, Memory.read m i = Memory.read n i) : m = n := by
  induction m generalizing lo n with
  | nil =>
    cases n with
    | nil => rfl
    | cons c n => have := h c.1; simp [Memory.read] at this
  | cons c m ih =>
    obtain ⟨a, b⟩ := c
    cases n with
    | nil => have := h a; simp [Memory.read] at this
    | cons d n =>
      obtain ⟨a', b'⟩ := d
      simp only [Memory.wfIn, Bool.and_eq_true, decide_eq_true_eq] at hm hn
      have haa : a = a' := by
        rcases Nat.lt_trichotomy a a' with hl | he | hl
        · have := h a
          simp only [Memory.read, if_true, if_neg (by omega : ¬ a' = a)] at this
          rw [Memory.read_eq_none_of_wfIn hn.2 (by omega)] at this
          cases this
        · exact he
        · have := h a'
          simp only [Memory.read, if_true, if_neg (by omega : ¬ a = a')] at this
          rw [Memory.read_eq_none_of_wfIn hm.2 (by omega)] at this
          cases this
      subst haa
      have hb : b = b' := by simpa [Memory.read] using h a
      subst hb
      congr 1
      refine ih hm.2 hn.2 fun i => ?_
      by_cases hi : a = i
      · subst hi
        rw [Memory.read_eq_none_of_wfIn hm.2 (by omega), Memory.read_eq_none_of_wfIn hn.2 (by omega)]
      · simpa [Memory.read, hi] using h i

end Sys2Proof.Machine
end

