-- ==== Sys2Proof/Laws/State.lean ====
section
/-! SUPPORT. What each small update of the state does to each field, so that no proof unfolds a record update. -/

namespace Sys2Proof.Machine

@[simp] theorem State.markDone_seq (s : State) : s.markDone.seq = s.seq := rfl
@[simp] theorem State.markDone_done (s : State) : s.markDone.done = true := rfl
@[simp] theorem State.markDone_err (s : State) : s.markDone.err = s.err := rfl
@[simp] theorem State.markDone_einfo (s : State) : s.markDone.einfo = s.einfo := rfl
@[simp] theorem State.markDone_warnRate (s : State) : s.markDone.warnRate = s.warnRate := rfl
@[simp] theorem State.markDone_overrun (s : State) : s.markDone.overrun = s.overrun := rfl
@[simp] theorem State.markDone_sampleRate (s : State) : s.markDone.sampleRate = s.sampleRate := rfl
@[simp] theorem State.markDone_bitRate (s : State) : s.markDone.bitRate = s.bitRate := rfl
@[simp] theorem State.markDone_mark (s : State) : s.markDone.mark = s.mark := rfl
@[simp] theorem State.markDone_space (s : State) : s.markDone.space = s.space := rfl
@[simp] theorem State.markDone_preamble (s : State) : s.markDone.preamble = s.preamble := rfl
@[simp] theorem State.markDone_rest (s : State) : s.markDone.rest = s.rest := rfl
@[simp] theorem State.markDone_ampl (s : State) : s.markDone.ampl = s.ampl := rfl
@[simp] theorem State.markDone_addrDst (s : State) : s.markDone.addrDst = s.addrDst := rfl
@[simp] theorem State.markDone_addrSrc (s : State) : s.markDone.addrSrc = s.addrSrc := rfl
@[simp] theorem State.markDone_addrPath1 (s : State) : s.markDone.addrPath1 = s.addrPath1 := rfl
@[simp] theorem State.markDone_addrPath2 (s : State) : s.markDone.addrPath2 = s.addrPath2 := rfl
@[simp] theorem State.markDone_npath (s : State) : s.markDone.npath = s.npath := rfl
@[simp] theorem State.markDone_plen (s : State) : s.markDone.plen = s.plen := rfl
@[simp] theorem State.markDone_flen (s : State) : s.markDone.flen = s.flen := rfl
@[simp] theorem State.markDone_b91Value (s : State) : s.markDone.b91Value = s.b91Value := rfl
@[simp] theorem State.markDone_b91Width (s : State) : s.markDone.b91Width = s.b91Width := rfl
@[simp] theorem State.markDone_pbuf (s : State) : s.markDone.pbuf = s.pbuf := rfl
@[simp] theorem State.markDone_fbuf (s : State) : s.markDone.fbuf = s.fbuf := rfl
@[simp] theorem State.markDone_b91out (s : State) : s.markDone.b91out = s.b91out := rfl
@[simp] theorem State.markDone_phase (s : State) : s.markDone.phase = s.phase := rfl
@[simp] theorem State.markDone_level (s : State) : s.markDone.level = s.level := rfl
@[simp] theorem State.markDone_epoch (s : State) : s.markDone.epoch = s.epoch := rfl
@[simp] theorem State.markDone_draws (s : State) : s.markDone.draws = s.draws := rfl
@[simp] theorem State.markDone_chunkMaxLess1 (s : State) : s.markDone.chunkMaxLess1 = s.chunkMaxLess1 := rfl
@[simp] theorem State.markDone_inbox (s : State) : s.markDone.inbox = s.inbox := rfl
@[simp] theorem State.markDone_sinkAnswers (s : State) : s.markDone.sinkAnswers = s.sinkAnswers := rfl
@[simp] theorem State.markDone_sinkLog (s : State) : s.markDone.sinkLog = s.sinkLog := rfl
@[simp] theorem State.markDone_reads (s : State) : s.markDone.reads = s.reads := rfl

@[simp] theorem State.markOverrun_seq (s : State) : s.markOverrun.seq = s.seq := rfl
@[simp] theorem State.markOverrun_done (s : State) : s.markOverrun.done = s.done := rfl
@[simp] theorem State.markOverrun_err (s : State) : s.markOverrun.err = s.err := rfl
@[simp] theorem State.markOverrun_einfo (s : State) : s.markOverrun.einfo = s.einfo := rfl
@[simp] theorem State.markOverrun_warnRate (s : State) : s.markOverrun.warnRate = s.warnRate := rfl
@[simp] theorem State.markOverrun_overrun (s : State) : s.markOverrun.overrun = true := rfl
@[simp] theorem State.markOverrun_sampleRate (s : State) : s.markOverrun.sampleRate = s.sampleRate := rfl
@[simp] theorem State.markOverrun_bitRate (s : State) : s.markOverrun.bitRate = s.bitRate := rfl
@[simp] theorem State.markOverrun_mark (s : State) : s.markOverrun.mark = s.mark := rfl
@[simp] theorem State.markOverrun_space (s : State) : s.markOverrun.space = s.space := rfl
@[simp] theorem State.markOverrun_preamble (s : State) : s.markOverrun.preamble = s.preamble := rfl
@[simp] theorem State.markOverrun_rest (s : State) : s.markOverrun.rest = s.rest := rfl
@[simp] theorem State.markOverrun_ampl (s : State) : s.markOverrun.ampl = s.ampl := rfl
@[simp] theorem State.markOverrun_addrDst (s : State) : s.markOverrun.addrDst = s.addrDst := rfl
@[simp] theorem State.markOverrun_addrSrc (s : State) : s.markOverrun.addrSrc = s.addrSrc := rfl
@[simp] theorem State.markOverrun_addrPath1 (s : State) : s.markOverrun.addrPath1 = s.addrPath1 := rfl
@[simp] theorem State.markOverrun_addrPath2 (s : State) : s.markOverrun.addrPath2 = s.addrPath2 := rfl
@[simp] theorem State.markOverrun_npath (s : State) : s.markOverrun.npath = s.npath := rfl
@[simp] theorem State.markOverrun_plen (s : State) : s.markOverrun.plen = s.plen := rfl
@[simp] theorem State.markOverrun_flen (s : State) : s.markOverrun.flen = s.flen := rfl
@[simp] theorem State.markOverrun_b91Value (s : State) : s.markOverrun.b91Value = s.b91Value := rfl
@[simp] theorem State.markOverrun_b91Width (s : State) : s.markOverrun.b91Width = s.b91Width := rfl
@[simp] theorem State.markOverrun_pbuf (s : State) : s.markOverrun.pbuf = s.pbuf := rfl
@[simp] theorem State.markOverrun_fbuf (s : State) : s.markOverrun.fbuf = s.fbuf := rfl
@[simp] theorem State.markOverrun_b91out (s : State) : s.markOverrun.b91out = s.b91out := rfl
@[simp] theorem State.markOverrun_phase (s : State) : s.markOverrun.phase = s.phase := rfl
@[simp] theorem State.markOverrun_level (s : State) : s.markOverrun.level = s.level := rfl
@[simp] theorem State.markOverrun_epoch (s : State) : s.markOverrun.epoch = s.epoch := rfl
@[simp] theorem State.markOverrun_draws (s : State) : s.markOverrun.draws = s.draws := rfl
@[simp] theorem State.markOverrun_chunkMaxLess1 (s : State) : s.markOverrun.chunkMaxLess1 = s.chunkMaxLess1 := rfl
@[simp] theorem State.markOverrun_inbox (s : State) : s.markOverrun.inbox = s.inbox := rfl
@[simp] theorem State.markOverrun_sinkAnswers (s : State) : s.markOverrun.sinkAnswers = s.sinkAnswers := rfl
@[simp] theorem State.markOverrun_sinkLog (s : State) : s.markOverrun.sinkLog = s.sinkLog := rfl
@[simp] theorem State.markOverrun_reads (s : State) : s.markOverrun.reads = s.reads := rfl

@[simp] theorem State.raise_seq (s : State) (e : ErrorCode) (n : BitVec 3) : (s.raise e n).seq = .idle := rfl
@[simp] theorem State.raise_done (s : State) (e : ErrorCode) (n : BitVec 3) : (s.raise e n).done = s.done := rfl
@[simp] theorem State.raise_err (s : State) (e : ErrorCode) (n : BitVec 3) : (s.raise e n).err = e := rfl
@[simp] theorem State.raise_einfo (s : State) (e : ErrorCode) (n : BitVec 3) : (s.raise e n).einfo = n := rfl
@[simp] theorem State.raise_warnRate (s : State) (e : ErrorCode) (n : BitVec 3) : (s.raise e n).warnRate = s.warnRate := rfl
@[simp] theorem State.raise_overrun (s : State) (e : ErrorCode) (n : BitVec 3) : (s.raise e n).overrun = s.overrun := rfl
@[simp] theorem State.raise_sampleRate (s : State) (e : ErrorCode) (n : BitVec 3) : (s.raise e n).sampleRate = s.sampleRate := rfl
@[simp] theorem State.raise_bitRate (s : State) (e : ErrorCode) (n : BitVec 3) : (s.raise e n).bitRate = s.bitRate := rfl
@[simp] theorem State.raise_mark (s : State) (e : ErrorCode) (n : BitVec 3) : (s.raise e n).mark = s.mark := rfl
@[simp] theorem State.raise_space (s : State) (e : ErrorCode) (n : BitVec 3) : (s.raise e n).space = s.space := rfl
@[simp] theorem State.raise_preamble (s : State) (e : ErrorCode) (n : BitVec 3) : (s.raise e n).preamble = s.preamble := rfl
@[simp] theorem State.raise_rest (s : State) (e : ErrorCode) (n : BitVec 3) : (s.raise e n).rest = s.rest := rfl
@[simp] theorem State.raise_ampl (s : State) (e : ErrorCode) (n : BitVec 3) : (s.raise e n).ampl = s.ampl := rfl
@[simp] theorem State.raise_addrDst (s : State) (e : ErrorCode) (n : BitVec 3) : (s.raise e n).addrDst = s.addrDst := rfl
@[simp] theorem State.raise_addrSrc (s : State) (e : ErrorCode) (n : BitVec 3) : (s.raise e n).addrSrc = s.addrSrc := rfl
@[simp] theorem State.raise_addrPath1 (s : State) (e : ErrorCode) (n : BitVec 3) : (s.raise e n).addrPath1 = s.addrPath1 := rfl
@[simp] theorem State.raise_addrPath2 (s : State) (e : ErrorCode) (n : BitVec 3) : (s.raise e n).addrPath2 = s.addrPath2 := rfl
@[simp] theorem State.raise_npath (s : State) (e : ErrorCode) (n : BitVec 3) : (s.raise e n).npath = s.npath := rfl
@[simp] theorem State.raise_plen (s : State) (e : ErrorCode) (n : BitVec 3) : (s.raise e n).plen = s.plen := rfl
@[simp] theorem State.raise_flen (s : State) (e : ErrorCode) (n : BitVec 3) : (s.raise e n).flen = s.flen := rfl
@[simp] theorem State.raise_b91Value (s : State) (e : ErrorCode) (n : BitVec 3) : (s.raise e n).b91Value = s.b91Value := rfl
@[simp] theorem State.raise_b91Width (s : State) (e : ErrorCode) (n : BitVec 3) : (s.raise e n).b91Width = s.b91Width := rfl
@[simp] theorem State.raise_pbuf (s : State) (e : ErrorCode) (n : BitVec 3) : (s.raise e n).pbuf = s.pbuf := rfl
@[simp] theorem State.raise_fbuf (s : State) (e : ErrorCode) (n : BitVec 3) : (s.raise e n).fbuf = s.fbuf := rfl
@[simp] theorem State.raise_b91out (s : State) (e : ErrorCode) (n : BitVec 3) : (s.raise e n).b91out = s.b91out := rfl
@[simp] theorem State.raise_phase (s : State) (e : ErrorCode) (n : BitVec 3) : (s.raise e n).phase = s.phase := rfl
@[simp] theorem State.raise_level (s : State) (e : ErrorCode) (n : BitVec 3) : (s.raise e n).level = s.level := rfl
@[simp] theorem State.raise_epoch (s : State) (e : ErrorCode) (n : BitVec 3) : (s.raise e n).epoch = s.epoch := rfl
@[simp] theorem State.raise_draws (s : State) (e : ErrorCode) (n : BitVec 3) : (s.raise e n).draws = s.draws := rfl
@[simp] theorem State.raise_chunkMaxLess1 (s : State) (e : ErrorCode) (n : BitVec 3) : (s.raise e n).chunkMaxLess1 = s.chunkMaxLess1 := rfl
@[simp] theorem State.raise_inbox (s : State) (e : ErrorCode) (n : BitVec 3) : (s.raise e n).inbox = s.inbox := rfl
@[simp] theorem State.raise_sinkAnswers (s : State) (e : ErrorCode) (n : BitVec 3) : (s.raise e n).sinkAnswers = s.sinkAnswers := rfl
@[simp] theorem State.raise_sinkLog (s : State) (e : ErrorCode) (n : BitVec 3) : (s.raise e n).sinkLog = s.sinkLog := rfl
@[simp] theorem State.raise_reads (s : State) (e : ErrorCode) (n : BitVec 3) : (s.raise e n).reads = s.reads := rfl

@[simp] theorem State.clearCommandStatus_seq (s : State) : s.clearCommandStatus.seq = s.seq := rfl
@[simp] theorem State.clearCommandStatus_done (s : State) : s.clearCommandStatus.done = false := rfl
@[simp] theorem State.clearCommandStatus_err (s : State) : s.clearCommandStatus.err = .none := rfl
@[simp] theorem State.clearCommandStatus_einfo (s : State) : s.clearCommandStatus.einfo = 0 := rfl
@[simp] theorem State.clearCommandStatus_warnRate (s : State) : s.clearCommandStatus.warnRate = false := rfl
@[simp] theorem State.clearCommandStatus_overrun (s : State) : s.clearCommandStatus.overrun = s.overrun := rfl
@[simp] theorem State.clearCommandStatus_sampleRate (s : State) : s.clearCommandStatus.sampleRate = s.sampleRate := rfl
@[simp] theorem State.clearCommandStatus_bitRate (s : State) : s.clearCommandStatus.bitRate = s.bitRate := rfl
@[simp] theorem State.clearCommandStatus_mark (s : State) : s.clearCommandStatus.mark = s.mark := rfl
@[simp] theorem State.clearCommandStatus_space (s : State) : s.clearCommandStatus.space = s.space := rfl
@[simp] theorem State.clearCommandStatus_preamble (s : State) : s.clearCommandStatus.preamble = s.preamble := rfl
@[simp] theorem State.clearCommandStatus_rest (s : State) : s.clearCommandStatus.rest = s.rest := rfl
@[simp] theorem State.clearCommandStatus_ampl (s : State) : s.clearCommandStatus.ampl = s.ampl := rfl
@[simp] theorem State.clearCommandStatus_addrDst (s : State) : s.clearCommandStatus.addrDst = s.addrDst := rfl
@[simp] theorem State.clearCommandStatus_addrSrc (s : State) : s.clearCommandStatus.addrSrc = s.addrSrc := rfl
@[simp] theorem State.clearCommandStatus_addrPath1 (s : State) : s.clearCommandStatus.addrPath1 = s.addrPath1 := rfl
@[simp] theorem State.clearCommandStatus_addrPath2 (s : State) : s.clearCommandStatus.addrPath2 = s.addrPath2 := rfl
@[simp] theorem State.clearCommandStatus_npath (s : State) : s.clearCommandStatus.npath = s.npath := rfl
@[simp] theorem State.clearCommandStatus_plen (s : State) : s.clearCommandStatus.plen = s.plen := rfl
@[simp] theorem State.clearCommandStatus_flen (s : State) : s.clearCommandStatus.flen = s.flen := rfl
@[simp] theorem State.clearCommandStatus_b91Value (s : State) : s.clearCommandStatus.b91Value = s.b91Value := rfl
@[simp] theorem State.clearCommandStatus_b91Width (s : State) : s.clearCommandStatus.b91Width = s.b91Width := rfl
@[simp] theorem State.clearCommandStatus_pbuf (s : State) : s.clearCommandStatus.pbuf = s.pbuf := rfl
@[simp] theorem State.clearCommandStatus_fbuf (s : State) : s.clearCommandStatus.fbuf = s.fbuf := rfl
@[simp] theorem State.clearCommandStatus_b91out (s : State) : s.clearCommandStatus.b91out = s.b91out := rfl
@[simp] theorem State.clearCommandStatus_phase (s : State) : s.clearCommandStatus.phase = s.phase := rfl
@[simp] theorem State.clearCommandStatus_level (s : State) : s.clearCommandStatus.level = s.level := rfl
@[simp] theorem State.clearCommandStatus_epoch (s : State) : s.clearCommandStatus.epoch = s.epoch := rfl
@[simp] theorem State.clearCommandStatus_draws (s : State) : s.clearCommandStatus.draws = s.draws := rfl
@[simp] theorem State.clearCommandStatus_chunkMaxLess1 (s : State) : s.clearCommandStatus.chunkMaxLess1 = s.chunkMaxLess1 := rfl
@[simp] theorem State.clearCommandStatus_inbox (s : State) : s.clearCommandStatus.inbox = s.inbox := rfl
@[simp] theorem State.clearCommandStatus_sinkAnswers (s : State) : s.clearCommandStatus.sinkAnswers = s.sinkAnswers := rfl
@[simp] theorem State.clearCommandStatus_sinkLog (s : State) : s.clearCommandStatus.sinkLog = s.sinkLog := rfl
@[simp] theorem State.clearCommandStatus_reads (s : State) : s.clearCommandStatus.reads = s.reads := rfl

@[simp] theorem State.logRead_seq (s : State) (v : DWord) : (s.logRead v).seq = s.seq := rfl
@[simp] theorem State.logRead_done (s : State) (v : DWord) : (s.logRead v).done = s.done := rfl
@[simp] theorem State.logRead_err (s : State) (v : DWord) : (s.logRead v).err = s.err := rfl
@[simp] theorem State.logRead_einfo (s : State) (v : DWord) : (s.logRead v).einfo = s.einfo := rfl
@[simp] theorem State.logRead_warnRate (s : State) (v : DWord) : (s.logRead v).warnRate = s.warnRate := rfl
@[simp] theorem State.logRead_overrun (s : State) (v : DWord) : (s.logRead v).overrun = s.overrun := rfl
@[simp] theorem State.logRead_sampleRate (s : State) (v : DWord) : (s.logRead v).sampleRate = s.sampleRate := rfl
@[simp] theorem State.logRead_bitRate (s : State) (v : DWord) : (s.logRead v).bitRate = s.bitRate := rfl
@[simp] theorem State.logRead_mark (s : State) (v : DWord) : (s.logRead v).mark = s.mark := rfl
@[simp] theorem State.logRead_space (s : State) (v : DWord) : (s.logRead v).space = s.space := rfl
@[simp] theorem State.logRead_preamble (s : State) (v : DWord) : (s.logRead v).preamble = s.preamble := rfl
@[simp] theorem State.logRead_rest (s : State) (v : DWord) : (s.logRead v).rest = s.rest := rfl
@[simp] theorem State.logRead_ampl (s : State) (v : DWord) : (s.logRead v).ampl = s.ampl := rfl
@[simp] theorem State.logRead_addrDst (s : State) (v : DWord) : (s.logRead v).addrDst = s.addrDst := rfl
@[simp] theorem State.logRead_addrSrc (s : State) (v : DWord) : (s.logRead v).addrSrc = s.addrSrc := rfl
@[simp] theorem State.logRead_addrPath1 (s : State) (v : DWord) : (s.logRead v).addrPath1 = s.addrPath1 := rfl
@[simp] theorem State.logRead_addrPath2 (s : State) (v : DWord) : (s.logRead v).addrPath2 = s.addrPath2 := rfl
@[simp] theorem State.logRead_npath (s : State) (v : DWord) : (s.logRead v).npath = s.npath := rfl
@[simp] theorem State.logRead_plen (s : State) (v : DWord) : (s.logRead v).plen = s.plen := rfl
@[simp] theorem State.logRead_flen (s : State) (v : DWord) : (s.logRead v).flen = s.flen := rfl
@[simp] theorem State.logRead_b91Value (s : State) (v : DWord) : (s.logRead v).b91Value = s.b91Value := rfl
@[simp] theorem State.logRead_b91Width (s : State) (v : DWord) : (s.logRead v).b91Width = s.b91Width := rfl
@[simp] theorem State.logRead_pbuf (s : State) (v : DWord) : (s.logRead v).pbuf = s.pbuf := rfl
@[simp] theorem State.logRead_fbuf (s : State) (v : DWord) : (s.logRead v).fbuf = s.fbuf := rfl
@[simp] theorem State.logRead_b91out (s : State) (v : DWord) : (s.logRead v).b91out = s.b91out := rfl
@[simp] theorem State.logRead_phase (s : State) (v : DWord) : (s.logRead v).phase = s.phase := rfl
@[simp] theorem State.logRead_level (s : State) (v : DWord) : (s.logRead v).level = s.level := rfl
@[simp] theorem State.logRead_epoch (s : State) (v : DWord) : (s.logRead v).epoch = s.epoch := rfl
@[simp] theorem State.logRead_draws (s : State) (v : DWord) : (s.logRead v).draws = s.draws := rfl
@[simp] theorem State.logRead_chunkMaxLess1 (s : State) (v : DWord) : (s.logRead v).chunkMaxLess1 = s.chunkMaxLess1 := rfl
@[simp] theorem State.logRead_inbox (s : State) (v : DWord) : (s.logRead v).inbox = s.inbox := rfl
@[simp] theorem State.logRead_sinkAnswers (s : State) (v : DWord) : (s.logRead v).sinkAnswers = s.sinkAnswers := rfl
@[simp] theorem State.logRead_sinkLog (s : State) (v : DWord) : (s.logRead v).sinkLog = s.sinkLog := rfl
@[simp] theorem State.logRead_reads (s : State) (v : DWord) : (s.logRead v).reads = s.reads ++ [v] := rfl

@[simp] theorem State.markDone_busy (s : State) : s.markDone.busy = s.busy := rfl
@[simp] theorem State.markOverrun_busy (s : State) : s.markOverrun.busy = s.busy := rfl
@[simp] theorem State.raise_busy (s : State) (e : ErrorCode) (n : BitVec 3) : (s.raise e n).busy = false := rfl
@[simp] theorem State.clearCommandStatus_busy (s : State) : s.clearCommandStatus.busy = s.busy := rfl
@[simp] theorem State.logRead_busy (s : State) (v : DWord) : (s.logRead v).busy = s.busy := rfl

theorem State.busy_eq_false_iff (s : State) : s.busy = false ↔ s.seq = .idle := by
  unfold State.busy; split <;> simp_all

theorem State.busy_eq_true_iff (s : State) : s.busy = true ↔ ∃ f, s.seq = .stream f := by
  unfold State.busy; split <;> simp_all

/-- A write of `CMD` while idle runs the command on the cleared status (R61). -/
theorem State.issue_idle (s : State) (c : State → State) (h : s.busy = false) : s.issue c = c s.clearCommandStatus := by
  simp [State.issue, h]

/-- A write of `CMD` while busy is dropped and recorded (R48). -/
theorem State.issue_busy (s : State) (c : State → State) (h : s.busy = true) : s.issue c = s.markOverrun := by
  simp [State.issue, h]

/-- Clearing forgets the outcome of the command before (R207). -/
theorem State.clearCommandStatus_forgets (s : State) (d w : Bool) (e : ErrorCode) (n : BitVec 3) :
    State.clearCommandStatus { s with done := d, err := e, einfo := n, warnRate := w } = s.clearCommandStatus := rfl

end Sys2Proof.Machine
end

