-- ==== Sys2Proof/Laws/Ops.lean ====
section
/-! SUPPORT. What the register and buffer operations do. -/

namespace Sys2Proof.Machine

/-! ## Register numbers -/

/-- `CMD` is register number 0 and no other. -/
theorem regOfNumber_eq_cmd_iff (n : Nat) : regOfNumber n = some .cmd ↔ n = 0 := by
  constructor
  · unfold regOfNumber; split <;> simp
  · rintro rfl; rfl

/-! ## Address registers -/

/-- An address register keeps bits 56:0 of what is written to it. -/
theorem AddrReg.toWord_ofWord (v : DWord) : (AddrReg.ofWord v).toWord = v &&& 0x01FFFFFFFFFFFFFF := by
  apply BitVec.eq_of_getLsbD_eq
  intro i hi
  simp only [AddrReg.toWord, AddrReg.ofWord, BitVec.getLsbD_append, BitVec.getLsbD_extractLsb', BitVec.getLsbD_and,
    BitVec.getLsbD_zero]
  interval_cases i <;> simp

/-- `ADDR_DST` and `ADDR_SRC` keep bits 55:0. -/
theorem AddrReg.toWord_withoutH_ofWord (v : DWord) :
    (AddrReg.ofWord v).withoutH.toWord = v &&& 0x00FFFFFFFFFFFFFF := by
  apply BitVec.eq_of_getLsbD_eq
  intro i hi
  simp only [AddrReg.toWord, AddrReg.withoutH, AddrReg.ofWord, BitVec.getLsbD_append, BitVec.getLsbD_extractLsb',
    BitVec.getLsbD_and, BitVec.getLsbD_zero]
  interval_cases i <;> simp

@[simp] theorem AddrReg.withoutH_withoutH (a : AddrReg) : a.withoutH.withoutH = a.withoutH := rfl

/-- A malformed address, as R106 words it. -/
theorem AddrReg.malformed_iff (a : AddrReg) : a.malformed = true ↔ a.clen = 0 ∨ 6 < a.clen.toNat := by
  simp [AddrReg.malformed]

/-! ## Buffers -/

/-- An index outside its space reads 0 (R43). -/
theorem State.octet_out_of_range (s : State) {space : BufSpace} {i : Nat} (h : bufSize space ≤ i) : s.octet space i = 0 := by
  simp [State.octet, Nat.not_lt.2 h]

/-- A listed octet inside its space reads as listed. -/
theorem State.octet_eq_of_read (s : State) {space : BufSpace} {i : Nat} {b : Byte} (hi : i < bufSize space)
    (h : (s.buf space).read i = some b) : s.octet space i = b := by simp [State.octet, hi, h]

/-- Two states whose listed octets and power-up agree read alike. -/
theorem State.octet_congr {s t : State} {space : BufSpace} {i : Nat} (he : t.epoch = s.epoch)
    (h : (t.buf space).read i = (s.buf space).read i) : t.octet space i = s.octet space i := by
  simp [State.octet, he, h]

theorem State.octets_length (s : State) (space : BufSpace) (n : Nat) : (s.octets space n).length = n := by
  simp [State.octets]

theorem State.octets_getElem? (s : State) (space : BufSpace) {n i : Nat} (h : i < n) :
    (s.octets space n)[i]? = some (s.octet space i) := by
  simp [State.octets, h]

theorem State.octets_congr {s t : State} {space : BufSpace} {n : Nat} (h : ∀ i, i < n → t.octet space i = s.octet space i) :
    t.octets space n = s.octets space n := by
  apply List.ext_getElem?
  intro i
  by_cases hi : i < n
  · rw [State.octets_getElem? _ _ hi, State.octets_getElem? _ _ hi, h i hi]
  · rw [List.getElem?_eq_none (by simp [State.octets_length]; omega),
      List.getElem?_eq_none (by simp [State.octets_length]; omega)]

/-- A write inside `PBUF` (R40). -/
theorem State.writePbuf_of_lt (s : State) {i : Nat} (b : Byte) (h : i < 256) :
    s.writePbuf i b = { s with pbuf := s.pbuf.write i b } := if_pos h

/-- A write outside `PBUF` is ignored (R43). -/
theorem State.writePbuf_of_le (s : State) {i : Nat} (b : Byte) (h : 256 ≤ i) : s.writePbuf i b = s :=
  if_neg (Nat.not_lt.2 h)

end Sys2Proof.Machine
end

