-- ==== Sys2Proof/Laws/Frame.lean ====
section
/-! SUPPORT. What validation accepts and how long a frame is; the residue of the check sequence. -/

namespace Sys2Proof.Machine

/-! ## Validation -/

theorem AddrReg.malformed_eq_true_iff (a : AddrReg) : a.malformed = true ↔ BadAddress a := a.malformed_iff

/-- Validation passes exactly when no check of R110 fails. -/
theorem validate_eq_none_iff (s : State) : validate s = none ↔ DescriptorOk s := by
  unfold validate DescriptorOk
  simp only [← AddrReg.malformed_eq_true_iff, payloadMax]
  split_ifs <;> simp_all
  exact if_neg (by omega)

/-- What a failed validation records is one of R201's values. -/
theorem validate_some {s : State} {e : ErrorCode} {n : BitVec 3} (h : validate s = some (e, n)) :
    (e = .badAddr ∧ n.toNat ≤ 4) ∨ (e = .frameTooLarge ∧ n = 0) := by
  unfold validate at h
  split_ifs at h <;> simp only [Option.some.injEq, Prod.mk.injEq] at h <;> obtain ⟨rfl, rfl⟩ := h <;> simp

/-! ## Lengths -/

@[simp] theorem addrOctets_length (a : AddrReg) (isPath : Bool) (l : BitVec 1) : (addrOctets a isPath l).length = 7 := by
  simp [addrOctets]

/-- The address field has two, three or four groups of seven octets (R63). -/
theorem addressField_length {s : State} (h : s.npath ≠ 3) : (addressField s).length = 14 + 7 * s.npath.toNat := by
  have hcases : s.npath = 0 ∨ s.npath = 1 ∨ s.npath = 2 := by
    generalize s.npath = p at h ⊢; revert p; decide
  rcases hcases with h | h | h <;> simp [addressField, h]

/-- The frame has `18 + 7*NPATH + PLEN` octets (R67). -/
theorem frame_length {s : State} (h : s.npath ≠ 3) : (frame s).length = frameLength s := by
  simp [frame, body, header, fcsOctets, addressField_length h, State.octets_length, frameLength]
  omega

/-- A valid descriptor's frame fits the frame buffer (R107). -/
theorem frameLength_le {s : State} (h : DescriptorOk s) : 18 ≤ frameLength s ∧ frameLength s ≤ 288 := by
  have hp : s.npath.toNat ≤ 2 := by
    have := h.1; generalize s.npath = p at this ⊢; revert p; decide
  have := h.2.2.2.2.2
  unfold frameLength
  omega

/-- `FLEN` holds the length whole. -/
theorem frameLength_toNat {s : State} (h : DescriptorOk s) : (BitVec.ofNat 16 (frame s).length).toNat = frameLength s := by
  rw [frame_length h.1]
  have := frameLength_le h
  simp only [BitVec.toNat_ofNat]
  omega

/-! ## The check sequence -/

/-- `CrcReg(l ++ r)` goes on from `CrcReg(l)` (R122). -/
theorem crcReg_append (l r : List Byte) : crcReg (l ++ r) = r.foldl crcOctet (crcReg l) := by
  simp [crcReg, List.foldl_append]

/-! ## Assembly -/

section
variable (s : State)

theorem assemble_fbuf : (assemble s).fbuf = s.fbuf.writeList 0 (frame s) := by simp only [assemble]
theorem assemble_flen : (assemble s).flen = BitVec.ofNat 16 (frame s).length := by simp only [assemble]

end

/-- `Assemble()` writes `FBUF` and `FLEN` only (R108). -/
theorem assemble_eq (s : State) : assemble s = { s with fbuf := (assemble s).fbuf, flen := (assemble s).flen } := by simp only [assemble]

theorem assemble_flen_toNat {s : State} (h : DescriptorOk s) : (assemble s).flen.toNat = frameLength s := by
  rw [assemble_flen, frameLength_toNat h]

/-- After assembly an octet of `FBUF` below the frame's length is listed, as the frame has it. -/
theorem assemble_read {s : State} (h : DescriptorOk s) {i : Nat} (hi : i < frameLength s) :
    (assemble s).fbuf.read i = (frame s)[i]? := by
  rw [assemble_fbuf, Memory.read_writeList, if_pos ⟨Nat.zero_le _, by rw [frame_length h.1]; omega⟩, Nat.sub_zero]

/-- From the frame's length on, `FBUF` is as before (R108). -/
theorem assemble_read_above {s : State} (h : DescriptorOk s) {i : Nat} (hi : frameLength s ≤ i) :
    (assemble s).fbuf.read i = s.fbuf.read i := by
  rw [assemble_fbuf, Memory.read_writeList, if_neg (by rw [frame_length h.1]; omega)]

/-- The frame stands in `FBUF` from index 0 (R108). -/
theorem assemble_octets {s : State} (h : DescriptorOk s) : (assemble s).octets .fbuf (frameLength s) = frame s := by
  have hl := frame_length h.1
  have hb := frameLength_le h
  apply List.ext_getElem?
  intro i
  by_cases hi : i < frameLength s
  · have hf : (frame s)[i]? = some ((frame s)[i]'(by omega)) := List.getElem?_eq_getElem _
    rw [State.octets_getElem? _ _ hi, hf]
    congr 1
    refine State.octet_eq_of_read _ (by simp only [bufSize]; omega) ?_
    rw [← hf, ← assemble_read h hi]
    rfl
  · rw [List.getElem?_eq_none (by rw [State.octets_length]; omega), List.getElem?_eq_none (by omega)]

/-- All that `Assemble()` does, once the descriptor is valid (R108): two fields change, and these are their values. -/
theorem assemble_spec {s : State} (h : DescriptorOk s) : ∃ m n, assemble s = { s with fbuf := m, flen := n } ∧
    n.toNat = frameLength s ∧ (∀ i, i < frameLength s → m.read i = (frame s)[i]?) ∧
    (∀ i, frameLength s ≤ i → m.read i = s.fbuf.read i) ∧ (Memory.wf 288 s.fbuf = true → Memory.wf 288 m = true) := by
  refine ⟨(assemble s).fbuf, (assemble s).flen, assemble_eq s, assemble_flen_toNat h, fun i => assemble_read h,
    fun i => assemble_read_above h, fun hw => ?_⟩
  rw [assemble_fbuf]
  refine Memory.wf_writeList _ hw ?_
  have := frameLength_le h
  rw [frame_length h.1]; omega

end Sys2Proof.Machine
end

