-- ==== Sys2Proof/Laws/PerInstr.lean ====
section
/-! SUPPORT. Statements about every row of the table, one lemma per constructor of `Instr`. -/

namespace Sys2Proof.Laws.RoundTrip

/-- The octet of a well-formed row decodes to it at its own place. -/
def Statement (i : Instr) : Prop := i.wf = true → decodeAt (placeOf i) (encodeOctet i) = .ok i

theorem b91enc : Statement .b91enc := fun _ => rfl
theorem build : Statement .build := fun _ => rfl
theorem transmit : Statement .transmit := fun _ => rfl
theorem modrst : Statement .modrst := fun _ => rfl

theorem illegal (opcode : Byte) : Statement (.illegal opcode) := by
  revert opcode; simp only [Statement]; decide +kernel

theorem dataCallsignOctet (c : BitVec 7) : Statement (.dataCallsignOctet c) := by
  revert c; simp only [Statement]; decide +kernel

theorem dataSsidOctet (h : BitVec 1) (ssid : BitVec 4) (l : BitVec 1) : Statement (.dataSsidOctet h ssid l) := by
  revert h ssid l; simp only [Statement]; decide +kernel

theorem dataCtrlUi : Statement .dataCtrlUi := fun _ => rfl
theorem dataPidNol3 : Statement .dataPidNol3 := fun _ => rfl
theorem dataFlag : Statement .dataFlag := fun _ => rfl

theorem dataB91Char (d : BitVec 7) : Statement (.dataB91Char d) := by
  revert d; simp only [Statement]; decide +kernel

end Sys2Proof.Laws.RoundTrip
end

