-- ==== Sys2Proof/Laws/Sine.lean ====
section
/-! SUPPORT. The integer evaluation of `Machine/Tone.lean` computes the rounded real sine of R152 (log 9): the Taylor
interval holds the sine, the exact test decides a half-integer, and so `magnitude` is the rounded magnitude. -/

namespace Sys2Proof.Machine

open Real

/-! ## The exact test -/

/-- One more step of `theta` passes a multiple of pi exactly when the sign of the sine, seen from the last multiple
passed, is not positive. -/
theorem next_multiple {θ x : ℝ} {k : Nat} (h0 : 0 < θ) (hpi : θ < π) (hk : k * π ≤ x) (hk' : x < (k + 1) * π) :
    if 0 < (-1) ^ k * sin (x + θ) then k * π ≤ x + θ ∧ x + θ < (k + 1) * π
    else (k + 1) * π ≤ x + θ ∧ x + θ < (k + 1 + 1) * π := by
  rw [← sin_sub_nat_mul_pi]
  split_ifs with h
  · refine ⟨by linarith, ?_⟩
    by_contra hle
    have : sin (x + θ - k * π - π) ≥ 0 := sin_nonneg_of_nonneg_of_le_pi (by linarith) (by linarith)
    rw [sin_sub_pi] at this
    linarith
  · refine ⟨?_, by linarith⟩
    by_contra hlt
    exact h (sin_pos_of_pos_of_lt_pi (by linarith) (by linarith))

/-- From `k pi <= n theta < (k+1) pi`, counting `m` more steps gives the multiples of pi below `(n+m) theta`. -/
theorem multiplesPassed_bounds {P Q : Int} (hQ : 0 < Q) {θ : ℝ} (h0 : 0 < θ) (hpi : θ < π)
    (hcos : cos θ = (P : ℝ) / Q) (m : Nat) (x : ℝ) (u v : Int) (k : Nat) (w : ℝ) (hw : 0 < w) (hu : (u : ℝ) = w * sin x)
    (hv : (v : ℝ) = w * Q * sin (x + θ)) (hk : k * π ≤ x) (hk' : x < (k + 1) * π) :
    (multiplesPassed P Q m u v k : ℝ) * π ≤ x + m * θ ∧ x + m * θ < (multiplesPassed P Q m u v k + 1) * π := by
  have hQ' : (0 : ℝ) < Q := by exact_mod_cast hQ
  induction m generalizing x u v k w with
  | zero => simpa [multiplesPassed] using ⟨hk, hk'⟩
  | succ m ih =>
    have hstep : (2 * P * v - Q * Q * u : ℝ) = w * Q * Q * sin (x + θ + θ) := by
      have hP : (P : ℝ) = Q * cos θ := by rw [hcos]; field_simp
      have hadd : sin (x + θ + θ) = 2 * cos θ * sin (x + θ) - sin x := by
        have := sin_sub (x + θ) θ
        rw [add_sub_cancel_right] at this
        rw [sin_add (x + θ) θ, this]; ring
      rw [hu, hv, hP, hadd]; ring
    have hsign : (0 < if k % 2 = 0 then v else -v) ↔ 0 < (-1 : ℝ) ^ k * sin (x + θ) := by
      have hz : (((if k % 2 = 0 then v else -v : Int) : Int) : ℝ) = w * Q * ((-1) ^ k * sin (x + θ)) := by
        split_ifs with he
        · rw [hv, Even.neg_one_pow (Nat.even_iff.2 he)]; ring
        · rw [Int.cast_neg, hv, Odd.neg_one_pow (Nat.odd_iff.2 (by omega))]; ring
      rw [← Int.cast_pos (R := ℝ), hz, mul_pos_iff_of_pos_left (by positivity)]
    have hnext := next_multiple h0 hpi hk hk'
    have hcount : ((m + 1 : Nat) : ℝ) * θ = θ + m * θ := by push_cast; ring
    rw [multiplesPassed, hcount, ← add_assoc]
    by_cases hpos : 0 < (-1 : ℝ) ^ k * sin (x + θ)
    · rw [if_pos hpos] at hnext
      rw [if_pos (hsign.2 hpos)]
      exact ih (x + θ) v _ k (w * Q) (by positivity) hv (by push_cast; exact hstep) hnext.1 hnext.2
    · rw [if_neg hpos] at hnext
      rw [if_neg (fun h => hpos (hsign.1 h))]
      exact ih (x + θ) v _ (k + 1) (w * Q) (by positivity) hv (by push_cast; exact hstep) (by push_cast; exact hnext.1)
        (by push_cast; exact hnext.2)

/-- The exact test decides whether `A sin(2 pi q)` reaches the half-integer `n - 1/2`. -/
theorem reaches_iff {A n : Nat} {q : ℚ} (hn : 1 ≤ n) (hq0 : 0 ≤ q) (hq : q ≤ 1 / 4) :
    reaches A q n = true ↔ (n : ℝ) - 1 / 2 ≤ A * sin (2 * π * q) := by
  have hπ := pi_pos
  have hb : (0 : ℝ) < q.den := by exact_mod_cast q.den_pos
  have hqa : (q : ℝ) = q.num.toNat / q.den := by
    have h1 : (q.num.toNat : ℤ) = q.num := Int.toNat_of_nonneg (Rat.num_nonneg.2 hq0)
    have h2 : ((q.num.toNat : ℕ) : ℝ) = (q.num : ℝ) := by exact_mod_cast h1
    rw [h2, ← Rat.cast_def]
  have hqr0 : (0 : ℝ) ≤ q := by exact_mod_cast hq0
  have hqr : (q : ℝ) ≤ 1 / 4 := by
    have : ((q : ℚ) : ℝ) ≤ ((1 / 4 : ℚ) : ℝ) := by exact_mod_cast hq
    simpa using this
  by_cases hA : n ≤ A
  · have hA1 : (1 : ℝ) ≤ A := by exact_mod_cast hn.trans hA
    have hnA : (n : ℝ) ≤ A := by exact_mod_cast hA
    have hn1 : (1 : ℝ) ≤ n := by exact_mod_cast hn
    set t : ℝ := ((2 * (n : Int) - 1 : Int) : ℝ) / ((2 * (A : Int) : Int) : ℝ) with ht
    have ht' : t = (2 * n - 1) / (2 * A) := by rw [ht]; push_cast; ring
    have ht0 : 0 < t := by rw [ht']; apply div_pos <;> linarith
    have ht1 : t < 1 := by rw [ht', div_lt_one (by linarith)]; linarith
    have hθ0 : 0 < arccos t := arccos_pos.2 ht1
    have hθ : arccos t < π / 2 := by rw [arccos_lt_pi_div_two]; exact ht0
    have hcos : cos (arccos t) = t := cos_arccos (by linarith) ht1.le
    have hsinθ : 0 < sin (arccos t) := sin_pos_of_pos_of_lt_pi hθ0 (by linarith)
    have hQ : (0 : Int) < 2 * (A : Int) := by omega
    have hQ' : (0 : ℝ) < ((2 * (A : Int) : Int) : ℝ) := by exact_mod_cast hQ
    have hcount := multiplesPassed_bounds (P := 2 * (n : Int) - 1) hQ hθ0 (by linarith) hcos (2 * q.den) 0 0 1 0
      (1 / (((2 * (A : Int) : Int) : ℝ) * sin (arccos t))) (by positivity) (by simp) (by simp; field_simp) (by simp)
      (by simpa using hπ)
    set K := multiplesPassed (2 * (n : Int) - 1) (2 * (A : Int)) (2 * q.den) 0 1 0
    have hdec : reaches A q n = true ↔ q.den ≤ K + 4 * q.num.toNat := by simp [reaches, hA, K]
    rw [hdec]
    have hsin : sin (2 * π * q) = cos (π / 2 - 2 * π * q) := (cos_pi_div_two_sub _).symm
    have hcmp : (n : ℝ) - 1 / 2 ≤ A * sin (2 * π * q) ↔ π / 2 - 2 * π * q ≤ arccos t := by
      have h1 : (n : ℝ) - 1 / 2 = A * t := by rw [ht']; field_simp
      rw [h1, mul_le_mul_iff_right₀ (by linarith), hsin]
      have hmem : π / 2 - 2 * π * q ∈ Set.Icc 0 π := ⟨by nlinarith, by nlinarith⟩
      have hmem' : arccos t ∈ Set.Icc 0 π := ⟨hθ0.le, by linarith⟩
      rw [← strictAntiOn_cos.le_iff_ge hmem' hmem, hcos]
    rw [hcmp]
    have hscale : π / 2 - 2 * π * q ≤ arccos t ↔ ((q.den : ℝ) - 4 * q.num.toNat) * π ≤ 0 + ((2 * q.den : Nat) : ℝ) * arccos t := by
      rw [hqa]
      constructor
      · intro h
        have := mul_le_mul_of_nonneg_left h (show (0 : ℝ) ≤ 2 * q.den by linarith)
        push_cast
        calc _ = 2 * (q.den : ℝ) * (π / 2 - 2 * π * (q.num.toNat / q.den)) := by field_simp; ring
          _ ≤ _ := by linarith
      · intro h
        push_cast at h
        have h2 : 2 * (q.den : ℝ) * (π / 2 - 2 * π * (q.num.toNat / q.den)) = ((q.den : ℝ) - 4 * q.num.toNat) * π := by
          field_simp; ring
        have := h2.trans_le h
        rw [zero_add] at this
        exact le_of_mul_le_mul_left this (by linarith)
    rw [hscale]
    constructor
    · intro h
      have h' : (q.den : ℝ) - 4 * q.num.toNat ≤ K := by
        have : (q.den : ℝ) ≤ K + 4 * q.num.toNat := by exact_mod_cast h
        linarith
      exact (mul_le_mul_of_nonneg_right h' hπ.le).trans hcount.1
    · intro h
      have h' : ((q.den : ℝ) - 4 * q.num.toNat) * π < (K + 1) * π := h.trans_lt hcount.2
      have h'' : (q.den : ℝ) < K + 1 + 4 * q.num.toNat := by
        have := lt_of_mul_lt_mul_right h' hπ.le
        linarith
      have : q.den < K + 1 + 4 * q.num.toNat := by exact_mod_cast h''
      omega
  · have hfalse : reaches A q n = false := by simp [reaches, hA]
    rw [hfalse]
    simp only [Bool.false_eq_true, false_iff, not_le]
    have h1 : (A : ℝ) + 1 ≤ n := by exact_mod_cast (by omega : A + 1 ≤ n)
    have h2 : (A : ℝ) * sin (2 * π * q) ≤ A := by
      have := sin_le_one (2 * π * q)
      have h0 : (0 : ℝ) ≤ A := Nat.cast_nonneg A
      nlinarith
    linarith

/-! ## The Taylor interval -/

/-- The partial sums of the sine series, as the imaginary parts of those of `exp (x i)`. -/
theorem exp_partial_im (x : ℝ) (N : Nat) :
    (∑ m ∈ Finset.range (2 * N), (x * Complex.I) ^ m / (m.factorial : ℂ)).im =
      ∑ i ∈ Finset.range N, (-1) ^ i * x ^ (2 * i + 1) / ((2 * i + 1).factorial : ℝ) := by
  induction N with
  | zero => simp
  | succ N ih =>
    rw [show 2 * (N + 1) = 2 * N + 1 + 1 by ring, Finset.sum_range_succ, Finset.sum_range_succ, Finset.sum_range_succ,
      Complex.add_im, Complex.add_im, ih]
    have hsq : (x * Complex.I) ^ (2 * N) = (((-1) ^ N * x ^ (2 * N) : ℝ) : ℂ) := by
      rw [mul_pow, pow_mul Complex.I, Complex.I_sq]; push_cast; ring
    have h1 : ((x * Complex.I) ^ (2 * N) / ((2 * N).factorial : ℂ)).im = 0 := by
      rw [hsq, ← Complex.ofReal_natCast, ← Complex.ofReal_div, Complex.ofReal_im]
    have h2 : ((x * Complex.I) ^ (2 * N + 1) / ((2 * N + 1).factorial : ℂ)).im =
        (-1) ^ N * x ^ (2 * N + 1) / ((2 * N + 1).factorial : ℝ) := by
      have : (x * Complex.I) ^ (2 * N + 1) / ((2 * N + 1).factorial : ℂ) =
          (((-1) ^ N * x ^ (2 * N + 1) / ((2 * N + 1).factorial : ℝ) : ℝ) : ℂ) * Complex.I := by
        rw [pow_succ, hsq]; push_cast; ring
      rw [this, Complex.mul_I_im, Complex.ofReal_re]
    rw [h1, h2]; ring

/-- The Taylor polynomial of degree 25 is within `10^-21` of the sine up to a right angle. -/
theorem sine_series_bound {x : ℝ} (h0 : 0 ≤ x) (hx : x ≤ 1.5708) :
    |∑ i ∈ Finset.range 13, (-1) ^ i * x ^ (2 * i + 1) / ((2 * i + 1).factorial : ℝ) - sin x| ≤ 1 / 10 ^ 21 := by
  have hnorm : ‖(x * Complex.I : ℂ)‖ = x := by simp [abs_of_nonneg h0]
  have hb := Complex.exp_bound' (x := x * Complex.I) (n := 26) (by rw [hnorm]; norm_num; linarith)
  rw [hnorm] at hb
  have him : (Complex.exp (x * Complex.I)).im = sin x := by rw [Complex.exp_ofReal_mul_I_im]
  rw [← exp_partial_im x 13, abs_sub_comm, ← him, ← Complex.sub_im]
  refine (Complex.abs_im_le_norm _).trans (hb.trans ?_)
  have hp : x ^ 26 ≤ 1.5708 ^ 26 := by gcongr
  have hf : ((Nat.factorial 26 : ℕ) : ℝ) = 403291461126605635584000000 := by norm_num [Nat.factorial]
  rw [hf]
  calc x ^ 26 / 403291461126605635584000000 * 2 ≤ 1.5708 ^ 26 / 403291461126605635584000000 * 2 := by gcongr
    _ ≤ 1 / 10 ^ 21 := by norm_num

/-- `sineTerms` is the partial sum it is meant to be. -/
theorem sineTerms_eq_sum (x : ℚ) (n i : Nat) :
    ((sineTerms (x * x) n (2 * i + 1) ((-1) ^ i * x ^ (2 * i + 1) / ((2 * i + 1).factorial : ℚ)) : ℚ)) =
      ∑ j ∈ Finset.range n, (-1) ^ (i + j) * x ^ (2 * (i + j) + 1) / ((2 * (i + j) + 1).factorial : ℚ) := by
  induction n generalizing i with
  | zero => simp [sineTerms]
  | succ n ih =>
    have hterm : -((-1) ^ i * x ^ (2 * i + 1) / ((2 * i + 1).factorial : ℚ)) * (x * x) / (((2 * i + 1 + 1) * (2 * i + 1 + 2) : Nat) : ℚ)
        = (-1) ^ (i + 1) * x ^ (2 * (i + 1) + 1) / ((2 * (i + 1) + 1).factorial : ℚ) := by
      have hfac : (2 * (i + 1) + 1).factorial = (2 * i + 1 + 2) * ((2 * i + 1 + 1) * (2 * i + 1).factorial) := rfl
      rw [hfac]
      push_cast
      field_simp
      ring
    rw [sineTerms, hterm, show 2 * i + 1 + 2 = 2 * (i + 1) + 1 by ring, ih, Finset.sum_range_succ', add_comm]
    congr 1
    refine Finset.sum_congr rfl fun j _ => ?_
    rw [show i + 1 + j = i + (j + 1) by ring]

/-- `sineApprox` is within `sineError` of the sine. -/
theorem sineApprox_bound {q : ℚ} (hq0 : 0 ≤ q) (hq : q ≤ 1 / 4) :
    |(sineApprox q : ℝ) - sin (2 * π * q)| ≤ (sineError : ℝ) := by
  have hqr0 : (0 : ℝ) ≤ q := by exact_mod_cast hq0
  have hqr : (q : ℝ) ≤ 1 / 4 := by
    have : ((q : ℚ) : ℝ) ≤ ((1 / 4 : ℚ) : ℝ) := by exact_mod_cast hq
    simpa using this
  set x : ℚ := 2 * q * (piDigits : ℚ) / ((10 ^ 20 : Nat) : ℚ) with hx
  have hxr : (x : ℝ) = 2 * q * 3.14159265358979323846 := by
    rw [hx]; simp only [piDigits]; push_cast; ring
  have happ : (sineApprox q : ℝ) =
      ∑ i ∈ Finset.range 13, (-1) ^ i * (x : ℝ) ^ (2 * i + 1) / ((2 * i + 1).factorial : ℝ) := by
    have h := sineTerms_eq_sum x 13 0
    have h' : sineApprox q = ∑ j ∈ Finset.range 13, (-1) ^ (0 + j) * x ^ (2 * (0 + j) + 1) / ((2 * (0 + j) + 1).factorial : ℚ) := by
      rw [← h]; simp [sineApprox, hx]
    rw [h']; push_cast; simp
  have hx0 : (0 : ℝ) ≤ x := by rw [hxr]; positivity
  have hx1 : (x : ℝ) ≤ 1.5708 := by rw [hxr]; linarith
  have hser := sine_series_bound hx0 hx1
  have hdiff : |sin (x : ℝ) - sin (2 * π * q)| ≤ 5 / 10 ^ 21 := by
    refine (abs_sin_sub_sin_le _ _).trans ?_
    have hlo := pi_gt_d20
    have hhi := pi_lt_d20
    rw [hxr, abs_le]
    constructor <;> nlinarith
  rw [happ]
  calc _ ≤ _ := abs_sub_le _ (sin (x : ℝ)) _
    _ ≤ 1 / 10 ^ 21 + 5 / 10 ^ 21 := add_le_add hser hdiff
    _ ≤ _ := by simp only [sineError]; push_cast; norm_num

/-! ## The rounded magnitude -/

/-- The rational floor is the floor of the real number. -/
theorem rat_floor_eq (x : ℚ) : x.floor = ⌊(x : ℝ)⌋ := by rw [Rat.floor_cast]; rfl

/-- `magnitude` is `A sin(2 pi q)` rounded, a tie upwards, for every amplitude a 16-bit register holds. -/
theorem magnitude_eq_floor {A : Nat} (hA : A < 2 ^ 16) {q : ℚ} (hq0 : 0 ≤ q) (hq : q ≤ 1 / 4) :
    (magnitude A q : ℤ) = ⌊(A : ℝ) * sin (2 * π * q) + 1 / 2⌋ := by
  set y : ℝ := A * sin (2 * π * q) with hy
  have hqr0 : (0 : ℝ) ≤ q := by exact_mod_cast hq0
  have hqr : (q : ℝ) ≤ 1 / 4 := by
    have : ((q : ℚ) : ℝ) ≤ ((1 / 4 : ℚ) : ℝ) := by exact_mod_cast hq
    simpa using this
  have hA' : (A : ℝ) ≤ 65535 := by exact_mod_cast (by omega : A ≤ 65535)
  have hA0 : (0 : ℝ) ≤ A := Nat.cast_nonneg A
  have hsin0 : 0 ≤ sin (2 * π * q) := sin_nonneg_of_nonneg_of_le_pi (by positivity) (by nlinarith [pi_pos])
  have hy0 : 0 ≤ y := mul_nonneg hA0 hsin0
  have hbound := abs_le.1 (sineApprox_bound hq0 hq)
  have herr : (sineError : ℝ) = 1 / 10 ^ 20 := by simp only [sineError]; push_cast; norm_num
  set lo : ℤ := ((A : ℚ) * (sineApprox q - sineError) + 1 / 2).floor with hlo
  set hi : ℤ := ((A : ℚ) * (sineApprox q + sineError) + 1 / 2).floor with hhi
  have hlo' : lo = ⌊(A : ℝ) * (sineApprox q - sineError) + 1 / 2⌋ := by
    rw [hlo, rat_floor_eq]; push_cast; rfl
  have hhi' : hi = ⌊(A : ℝ) * (sineApprox q + sineError) + 1 / 2⌋ := by
    rw [hhi, rat_floor_eq]; push_cast; rfl
  have h1 : (A : ℝ) * (sineApprox q - sineError) ≤ y := by
    rw [hy]; exact mul_le_mul_of_nonneg_left (by linarith [hbound.2]) hA0
  have h2 : y ≤ (A : ℝ) * (sineApprox q + sineError) := by
    rw [hy]; exact mul_le_mul_of_nonneg_left (by linarith [hbound.1]) hA0
  have hwidth : (A : ℝ) * (sineApprox q + sineError) - A * (sineApprox q - sineError) < 1 / 2 := by
    rw [herr]; nlinarith
  have hlo_le : lo ≤ ⌊y + 1 / 2⌋ := by rw [hlo']; exact Int.floor_le_floor (by linarith)
  have hle_hi : ⌊y + 1 / 2⌋ ≤ hi := by rw [hhi']; exact Int.floor_le_floor (by linarith)
  have hhi_le : hi ≤ lo + 1 := by
    rw [hlo', hhi', ← Int.floor_add_one]; exact Int.floor_le_floor (by linarith)
  have hlo0 : 0 ≤ lo := by
    rw [hlo']; apply Int.floor_nonneg.2; linarith
  have hmag : (magnitude A q : ℤ) = if lo.toNat = hi.toNat then (lo.toNat : ℤ) else if reaches A q hi.toNat then hi.toNat else lo.toNat := by
    unfold magnitude
    simp only [← hlo, ← hhi]
    split_ifs <;> rfl
  rw [hmag]
  split_ifs with heq hr
  · omega
  · have hi1 : 1 ≤ hi.toNat := by omega
    have := (reaches_iff (A := A) hi1 hq0 hq).1 hr
    have hcast : ((hi.toNat : ℕ) : ℝ) = (hi : ℝ) := by
      have : ((hi.toNat : ℕ) : ℤ) = hi := Int.toNat_of_nonneg (by omega)
      exact_mod_cast this
    have : hi ≤ ⌊y + 1 / 2⌋ := Int.le_floor.2 (by rw [← hcast]; linarith)
    omega
  · have hi1 : 1 ≤ hi.toNat := by omega
    have := mt (reaches_iff (A := A) hi1 hq0 hq).2 hr
    have hcast : ((hi.toNat : ℕ) : ℝ) = (hi : ℝ) := by
      have : ((hi.toNat : ℕ) : ℤ) = hi := Int.toNat_of_nonneg (by omega)
      exact_mod_cast this
    have : ⌊y + 1 / 2⌋ < hi := Int.floor_lt.2 (by rw [← hcast]; linarith)
    omega

end Sys2Proof.Machine
end

