-- ==== Sys2Proof/Laws/Step.lean ====
section
/-! SUPPORT. What a command, a step of the block and a step of the machine can do, said once. -/

namespace Sys2Proof.Machine

/-! ## Commands -/

/-- The operation of each row of the table: what `exec` runs on the cleared status while the block is idle. -/
def operation : Instr → State → State
  | .b91enc => b91encCommand
  | .build => buildCommand
  | .transmit => transmitCommand
  | .modrst => modrstCommand
  | .illegal _ => illegalCommand
  | .dataCallsignOctet c => commandOf (encodeOctet (.dataCallsignOctet c))
  | .dataSsidOctet h ssid l => commandOf (encodeOctet (.dataSsidOctet h ssid l))
  | .dataCtrlUi => commandOf (encodeOctet .dataCtrlUi)
  | .dataPidNol3 => commandOf (encodeOctet .dataPidNol3)
  | .dataFlag => commandOf (encodeOctet .dataFlag)
  | .dataB91Char d => commandOf (encodeOctet (.dataB91Char d))

/-- Every arm of `exec` issues its operation. -/
theorem exec_eq (i : Instr) (s : State) : exec i s = .next (s.issue (operation i)) := by cases i <;> rfl

/-- The opcode map (R61, R62). -/
theorem decodeCommand_cases (op : Byte) :
    (op = 0x01 ∧ decodeCommand op = .b91enc) ∨ (op = 0x02 ∧ decodeCommand op = .build) ∨
    (op = 0x03 ∧ decodeCommand op = .transmit) ∨ (op = 0x04 ∧ decodeCommand op = .modrst) ∨
    (op ≠ 0x01 ∧ op ≠ 0x02 ∧ op ≠ 0x03 ∧ op ≠ 0x04 ∧ decodeCommand op = .illegal op) := by
  revert op; decide +kernel

/-- A command word selects one of the five operations. -/
theorem commandOf_cases (op : Byte) :
    (op = 0x01 ∧ commandOf op = b91encCommand) ∨ (op = 0x02 ∧ commandOf op = buildCommand) ∨
    (op = 0x03 ∧ commandOf op = transmitCommand) ∨ (op = 0x04 ∧ commandOf op = modrstCommand) ∨
    (op ≠ 0x01 ∧ op ≠ 0x02 ∧ op ≠ 0x03 ∧ op ≠ 0x04 ∧ commandOf op = illegalCommand) := by
  rcases decodeCommand_cases op with ⟨h, hd⟩ | ⟨h, hd⟩ | ⟨h, hd⟩ | ⟨h, hd⟩ | ⟨h1, h2, h3, h4, hd⟩
  · exact .inl ⟨h, by rw [commandOf, hd]⟩
  · exact .inr (.inl ⟨h, by rw [commandOf, hd]⟩)
  · exact .inr (.inr (.inl ⟨h, by rw [commandOf, hd]⟩))
  · exact .inr (.inr (.inr (.inl ⟨h, by rw [commandOf, hd]⟩)))
  · exact .inr (.inr (.inr (.inr ⟨h1, h2, h3, h4, by rw [commandOf, hd]⟩)))

/-- The decoder yields the operation the command word selects. -/
theorem operation_decodeCommand (op : Byte) : operation (decodeCommand op) = commandOf op := by
  rcases decodeCommand_cases op with ⟨_, hd⟩ | ⟨_, hd⟩ | ⟨_, hd⟩ | ⟨_, hd⟩ | ⟨_, _, _, _, hd⟩ <;>
    rw [commandOf, hd] <;> rfl

/-- TRANSMIT: rejected by a check, or accepted. -/
theorem transmitCommand_cases (s : State) :
    (∃ e n, validate s = some (e, n) ∧ transmitCommand s = s.raise e n) ∨
    (∃ e n, validate s = none ∧ configCheck s = some (e, n) ∧ transmitCommand s = s.raise e n) ∨
    (validate s = none ∧ configCheck s = none ∧ transmitCommand s = startStream (assemble s)) := by
  unfold transmitCommand
  rcases hv : validate s with _ | ⟨e, n⟩
  · rcases hc : configCheck s with _ | ⟨e, n⟩
    · right; right; simp
    · right; left; exact ⟨e, n, rfl, rfl, rfl⟩
  · left; exact ⟨e, n, rfl, rfl⟩

/-- BUILD: rejected by a check, or done. -/
theorem buildCommand_cases (s : State) :
    (∃ e n, validate s = some (e, n) ∧ buildCommand s = s.raise e n) ∨
    (validate s = none ∧ buildCommand s = (assemble s).markDone) := by
  unfold buildCommand
  rcases hv : validate s with _ | ⟨e, n⟩
  · right; simp
  · left; exact ⟨e, n, rfl, rfl⟩

/-! ## The steps of a transmission -/

/-- The enabled step (R176). -/
theorem blockStep_cases {s : State} {f : InFlight} (h : s.seq = .stream f) :
    (f.cbuf.length = s.chunkMax ∧ blockStep s = flush s f) ∨
    (f.cbuf.length ≠ s.chunkMax ∧ 0 < f.j ∧ blockStep s = sampleStep s f) ∨
    (f.cbuf.length ≠ s.chunkMax ∧ f.j = 0 ∧ ∃ b, f.T[f.k]? = some b ∧ blockStep s = symbolStart s f b) ∨
    (f.cbuf.length ≠ s.chunkMax ∧ f.j = 0 ∧ f.T[f.k]? = none ∧ 0 < f.cbuf.length ∧ blockStep s = flush s f) ∨
    (f.cbuf = [] ∧ f.j = 0 ∧ f.T[f.k]? = none ∧ blockStep s = complete s) := by
  unfold blockStep
  rw [h]
  simp only
  by_cases h1 : f.cbuf.length = s.chunkMax
  · left; simp [h1]
  · by_cases h2 : 0 < f.j
    · right; left; simp [h1, h2]
    · have hj : f.j = 0 := by omega
      rcases hT : f.T[f.k]? with _ | b
      · by_cases h3 : 0 < f.cbuf.length
        · right; right; right; left; simp [h1, hj, h3]
        · right; right; right; right
          have hc : f.cbuf = [] := List.eq_nil_of_length_eq_zero (by omega)
          refine ⟨hc, hj, rfl, ?_⟩
          rw [if_neg h1, if_neg h2, if_neg h3]
      · right; right; left; simp [h1, hj]

/-- A flush: the block waits, goes on, or aborts (R181, R182). -/
theorem flush_cases (s : State) (f : InFlight) :
    (s.sinkAnswers = [] ∧ flush s f = s) ∨
    (∃ answers, s.sinkAnswers = .ok :: answers ∧ flush s f =
      { s with
        sinkAnswers := answers, sinkLog := s.sinkLog ++ [(f.cbuf, .ok)], seq := .stream { f with cbuf := [] } }) ∨
    (∃ answers, s.sinkAnswers = .fail :: answers ∧ flush s f =
      { s with
        sinkAnswers := answers, sinkLog := s.sinkLog ++ [(f.cbuf, .fail)], seq := .idle, err := .sinkFail, einfo := 0 }) := by
  unfold flush
  rcases hs : s.sinkAnswers with _ | ⟨a, answers⟩
  · left; simp
  · cases a
    · right; left; exact ⟨answers, rfl, rfl⟩
    · right; right; exact ⟨answers, rfl, rfl⟩

theorem blockStep_idle {s : State} (h : s.seq = .idle) : blockStep s = s := by simp [blockStep, h]

/-! ## Steps of the machine -/

theorem step_of_nil {s : State} (h : s.inbox = []) : step s = .next (blockStep s) := by simp [step, h]

/-- A write of `CMD` runs the command. -/
theorem step_of_command {s : State} {v : Nat} {rest : List Event} (h : s.inbox = .regWrite 0 v :: rest) :
    step s = exec (decodeCommand (BitVec.ofNat 8 v)) { s with inbox := rest } := by
  simp [step, h, opcodeWritten, regOfNumber]

/-- Any other event is taken. -/
theorem step_of_event {s : State} {e : Event} {rest : List Event} (h : s.inbox = e :: rest) (he : opcodeWritten e = none) :
    step s = .next (takeEvent e { s with inbox := rest }) := by simp [step, h, he]

/-- A write of any other number than that of `CMD` is no command. -/
theorem opcodeWritten_of_ne_cmd (n v : Nat) (h : regOfNumber n ≠ some .cmd) : opcodeWritten (.regWrite n v) = none := by
  simp [opcodeWritten, h]

/-- While busy a host write is dropped and recorded (R48, R172). -/
theorem takeEvent_regWrite_busy (s : State) (n v : Nat) (h : s.busy = true) :
    takeEvent (.regWrite n v) s = s.markOverrun := by simp only [takeEvent, hostRegWrite, h, if_true]

theorem takeEvent_pbufWrite_busy (s : State) (i : Nat) (b : Byte) (h : s.busy = true) :
    takeEvent (.pbufWrite i b) s = s.markOverrun := by simp only [takeEvent, hostPbufWrite, h, if_true]

/-- While idle a write of a register stores its low bits (R19). -/
theorem takeEvent_regWrite_idle (s : State) (n v : Nat) {r : Reg} (h : s.busy = false) (hr : regOfNumber n = some r) :
    takeEvent (.regWrite n v) s = s.writeReg r v := by
  simp only [takeEvent, hostRegWrite, h, Bool.false_eq_true, if_false, hr]

/-- A write of a number that is no register is ignored (R19). -/
theorem takeEvent_regWrite_none (s : State) (n v : Nat) (h : s.busy = false) (hr : regOfNumber n = none) :
    takeEvent (.regWrite n v) s = s := by
  simp only [takeEvent, hostRegWrite, h, Bool.false_eq_true, if_false, hr]

theorem takeEvent_pbufWrite_idle (s : State) (i : Nat) (b : Byte) (h : s.busy = false) :
    takeEvent (.pbufWrite i b) s = s.writePbuf i b := by
  simp only [takeEvent, hostPbufWrite, h, Bool.false_eq_true, if_false]

theorem opcodeWritten_eq_some_iff (e : Event) (op : Byte) :
    opcodeWritten e = some op ↔ ∃ v, e = .regWrite 0 v ∧ BitVec.ofNat 8 v = op := by
  cases e <;> simp [opcodeWritten, regOfNumber_eq_cmd_iff]

/-- What a step can be: the block's own, a command, or another event. -/
theorem step_cases {s t : State} (h : step s = .next t) :
    (s.inbox = [] ∧ t = blockStep s) ∨
    (∃ v rest, s.inbox = .regWrite 0 v :: rest ∧
      t = State.issue { s with inbox := rest } (commandOf (BitVec.ofNat 8 v))) ∨
    (∃ e rest, s.inbox = e :: rest ∧ opcodeWritten e = none ∧ t = takeEvent e { s with inbox := rest }) := by
  rcases hi : s.inbox with _ | ⟨e, rest⟩
  · left
    rw [step_of_nil hi] at h
    exact ⟨rfl, by injection h with h; exact h.symm⟩
  · right
    rcases ho : opcodeWritten e with _ | op
    · right
      rw [step_of_event hi ho] at h
      exact ⟨e, rest, rfl, ho, by injection h with h; exact h.symm⟩
    · left
      obtain ⟨v, rfl, rfl⟩ := (opcodeWritten_eq_some_iff e op).1 ho
      rw [step_of_command hi, exec_eq, operation_decodeCommand] at h
      exact ⟨v, rest, rfl, by injection h with h; exact h.symm⟩

end Sys2Proof.Machine
end

