-- ==== Sys2Proof/Laws/Units.lean ====
section
/-! SUPPORT. Small laws of the units, and what each step of a transmission does to what remains of it. -/

namespace Sys2Proof.Machine

/-! ## Base-91, addresses, phase -/

@[simp] theorem base91_length (value width : Nat) : (base91 value width).length = width := by
  induction width generalizing value with
  | zero => rfl
  | succ w ih => simp [base91, ih]

theorem addrOctets_char (a : AddrReg) (isPath : Bool) (l : BitVec 1) {i : Nat} (hi : i < 6) :
    (addrOctets a isPath l)[i]? = some (callsignOctet (if i < a.clen.toNat then a.char i else 0x20)) := by
  unfold addrOctets
  rw [List.getElem?_append_left (by simpa using hi)]
  simp [hi]

theorem addrOctets_ssid (a : AddrReg) (isPath : Bool) (l : BitVec 1) :
    (addrOctets a isPath l)[6]? = some (ssidOctet (if isPath then a.h else 0) a.ssid l) := by
  unfold addrOctets
  rw [List.getElem?_append_right (by simp)]
  simp

/-- The phase advance is the fractional part of a sum of turns. -/
theorem phaseAdvance_eq (phase : Rat) (freq rate : Nat) :
    phaseAdvance phase freq rate = Int.fract (phase + (freq : ℚ) / (rate : ℚ)) := rfl

/-! ## Errors of a command -/

/-- Raising on the cleared status of an idle block changes the outcome fields alone (R205). -/
theorem State.raise_clearCommandStatus {s : State} (hs : s.busy = false) (e : ErrorCode) (n : BitVec 3) :
    s.clearCommandStatus.raise e n = { s with done := false, err := e, einfo := n, warnRate := false } := by
  have sq := (State.busy_eq_false_iff s).1 hs
  cases s
  subst sq
  rfl

/-- What the rate check records, and when (R174). -/
theorem configCheck_cases (s : State) :
    (s.sampleRate = 0 ∧ configCheck s = some (.badConfig, 0)) ∨
    (s.sampleRate ≠ 0 ∧ s.bitRate = 0 ∧ configCheck s = some (.badConfig, 1)) ∨
    (RatesOk s ∧ configCheck s = none) := by
  unfold configCheck RatesOk
  by_cases h1 : s.sampleRate = 0
  · exact .inl ⟨h1, if_pos h1⟩
  · by_cases h2 : s.bitRate = 0
    · exact .inr (.inl ⟨h1, h2, by rw [if_neg h1, if_pos h2]⟩)
    · exact .inr (.inr ⟨⟨h1, h2⟩, by rw [if_neg h1, if_neg h2]⟩)

/-! ## Turns -/

/-- A turn of the block is a step of the block, on the state without the event. -/
theorem step_of_turn {s s' : State} (h : BlocksTurn s s') :
    step s = .next (blockStep s') ∧ ∃ rest, s' = { s with inbox := rest } := by
  rcases h with ⟨h, rfl⟩ | ⟨rest, h, rfl⟩
  · exact ⟨step_of_nil h, _, rfl⟩
  · exact ⟨step_of_event h rfl, _, rfl⟩

/-- What is offered is flushed (R176). -/
theorem blockStep_of_offers {s : State} {f : InFlight} (hs : s.seq = .stream f) (ho : Offers s f) :
    blockStep s = flush s f := by
  rcases blockStep_cases hs with ⟨_, h⟩ | ⟨h1, h3, _⟩ | ⟨h1, _, b, h4, _⟩ | ⟨_, _, _, _, h⟩ | ⟨h1, _, _, _⟩
  · exact h
  · rcases ho with h | h
    · exact absurd h h1
    · omega
  · rcases ho with h | h
    · exact absurd h h1
    · rw [List.getElem?_eq_none h.2.1] at h4; cases h4
  · exact h
  · rcases ho with h | h
    · simp [h1, State.chunkMax] at h
    · simp [h1] at h

/-- One step of a run. -/
theorem run_succ {M : Host.Core} {s t : M.State} (n : Nat) (h : M.step s = .next t) : M.run (n + 1) s = M.run n t := by
  simp only [Host.Core.run, h]

/-! ## What remains of a transmission -/

/-- Two states of one configuration synthesize alike. -/
theorem synth_congr {s t : State} (h1 : t.sampleRate = s.sampleRate) (h2 : t.bitRate = s.bitRate) (h3 : t.mark = s.mark)
    (h4 : t.space = s.space) (h5 : t.ampl = s.ampl) (levels : List Bool) (tacc : Nat) (p : Rat) :
    synth t levels tacc p = synth s levels tacc p := by
  induction levels generalizing tacc p with
  | nil => rfl
  | cons b l ih => simp only [synth, ih, h1, h2, h5, tone, h3, h4]

theorem remaining_congr {s t : State} (h1 : t.sampleRate = s.sampleRate) (h2 : t.bitRate = s.bitRate)
    (h3 : t.mark = s.mark) (h4 : t.space = s.space) (h5 : t.ampl = s.ampl) (h6 : t.phase = s.phase)
    (h7 : t.level = s.level) (f : InFlight) : t.remaining f = s.remaining f := by
  simp only [State.remaining, synth_congr h1 h2 h3 h4 h5, h1, h5, h6, h7]

/-- A sample step takes the first of the samples that remain. -/
theorem remaining_sampleStep (s : State) (f : InFlight) (hj : 0 < f.j) :
    let x := sample s.ampl (phaseAdvance s.phase f.freq.toNat s.sampleRate.toNat)
    let r := (sampleStep s f).remaining { f with cbuf := f.cbuf ++ [x], j := f.j - 1 }
    s.remaining f = (x :: r.1, r.2) := by
  obtain ⟨n, hn⟩ : ∃ n, f.j = n + 1 := ⟨f.j - 1, by omega⟩
  simp only [State.remaining, hn, toneSamples, Nat.add_sub_cancel]
  rw [synth_congr (s := s) (t := sampleStep s f) rfl rfl rfl rfl rfl]
  rfl

/-- A symbol start leaves what remains as it is. -/
theorem remaining_symbolStart (s : State) {f g : InFlight} {b : Bool} (hj : f.j = 0) (hT : f.T[f.k]? = some b)
    (hg : (symbolStart s f b).seq = .stream g) :
    s.remaining f = (symbolStart s f b).remaining g ∧ s.finalLevel f = (symbolStart s f b).finalLevel g := by
  have hg' : g = _ := (Seq.stream.inj hg).symm
  subst hg'
  have h : f.T.drop f.k = b :: f.T.drop (f.k + 1) := by
    obtain ⟨hlt, he⟩ := List.getElem?_eq_some_iff.1 hT
    rw [List.drop_eq_getElem_cons hlt, he]
  refine ⟨?_, ?_⟩
  · simp only [State.remaining, hj, h, nrzi, toneSamples, synth]
    simp only [synth_congr (s := s) (t := symbolStart s f b) rfl rfl rfl rfl rfl]
    rfl
  · simp only [State.finalLevel, h, nrzi]
    rfl

/-- With no bit and no sample left nothing remains. -/
theorem remaining_end (s : State) {f : InFlight} (hj : f.j = 0) (hT : f.T[f.k]? = none) :
    s.remaining f = ([], s.phase) ∧ s.finalLevel f = s.level := by
  have : f.T.drop f.k = [] := List.drop_eq_nil_iff.2 (List.getElem?_eq_none_iff.1 hT)
  simp [State.remaining, State.finalLevel, hj, this, nrzi, toneSamples, synth]

/-- An accepted chunk moves from the chunk buffer to what is delivered, and what remains is as before. -/
theorem flush_ok {s : State} (f : InFlight) {answers : List SinkAnswer} (h : s.sinkAnswers = .ok :: answers) :
    (flush s f).seq = .stream { f with cbuf := [] } ∧ (flush s f).delivered = s.delivered ++ f.cbuf ∧
    (∀ g, (flush s f).remaining g = s.remaining g) ∧ (∀ g, (flush s f).finalLevel g = s.finalLevel g) := by
  have hf : flush s f =
      { s with
        sinkAnswers := answers, sinkLog := s.sinkLog ++ [(f.cbuf, .ok)], seq := .stream { f with cbuf := [] } } := by
    unfold flush
    rw [h]
  refine ⟨by rw [hf], by rw [hf]; simp [State.delivered], fun g => ?_, fun g => by rw [hf]; rfl⟩
  exact remaining_congr (by rw [hf]) (by rw [hf]) (by rw [hf]) (by rw [hf]) (by rw [hf]) (by rw [hf]) (by rw [hf]) g

end Sys2Proof.Machine
end

