-- ==== Sys2Proof/Tests/Slice0.lean ====
section
/-! SUPPORT. Tests with expected results from the spec's tables and vectors (30_encoding.md, 95_test_vectors.md; a test
names its vector), and for each statement with hypotheses a concrete state and operands that meet them. -/

namespace Sys2Proof.Tests

open Sys2Proof Sys2Proof.Machine

/-! ## Helpers -/

/-- An address register of the given characters. -/
def addr (chars : List Byte) (ssid : BitVec 4) (h : BitVec 1) : AddrReg where
  call := chars.foldr (fun c acc => (acc <<< 8) ||| c.zeroExtend 48) 0
  clen := BitVec.ofNat 4 chars.length
  ssid := ssid
  h := h

/-- `APRS`, SSID 0. -/
def aprs : AddrReg := addr [0x41, 0x50, 0x52, 0x53] 0 0

/-- `N0CALL`, SSID 0. -/
def n0call : AddrReg := addr [0x4E, 0x30, 0x43, 0x41, 0x4C, 0x4C] 0 0

/-- `WIDE1`, SSID 1. -/
def wide1 : AddrReg := addr [0x57, 0x49, 0x44, 0x45, 0x31] 1 0

/-- The descriptor of V20: `APRS` from `N0CALL`, payload `TEST`. -/
def beacon : State :=
  { State.reset with
    addrDst := aprs, addrSrc := n0call, plen := 4, pbuf := [(0, 0x54), (1, 0x45), (2, 0x53), (3, 0x54)] }

/-- An empty transmission's position. -/
def position (T : List Bool) (k j : Nat) (cbuf : List Sample) : InFlight :=
  { T := T, k := k, j := j, tacc := 0, freq := 1200, cbuf := cbuf }

/-- A running transmission with `CHUNK_MAX = 2`. -/
def air (T : List Bool) (k j : Nat) (cbuf : List Sample) : State :=
  { State.reset with seq := .stream (position T k j cbuf), chunkMaxLess1 := 1 }

/-- The descriptor of V20 accepted: the frame in `FBUF`, nothing sent yet. -/
def onAir : State :=
  { assemble beacon with
    seq := .stream (position (stream 25 ((assemble beacon).octets .fbuf 22) 5) 0 0 []) }

/-- The state a command leaves. -/
def after (o : Host.Outcome State Fault Refusal) : State :=
  match o with
  | .next s => s
  | .fault _ => State.reset
  | .refused _ => State.reset

/-! ## Well-formedness: each check refuses an ill-formed term -/

theorem test_illegal_of_a_command_is_refused :
    (Instr.illegal 0x01).wf = false ∧ (Instr.illegal 0x02).wf = false ∧ (Instr.illegal 0x03).wf = false ∧
    (Instr.illegal 0x04).wf = false ∧ (Instr.illegal 0x00).wf = true ∧ (Instr.illegal 0x05).wf = true := by decide

theorem test_base91_character_out_of_range_is_refused :
    (Instr.dataB91Char 0x20).wf = false ∧ (Instr.dataB91Char 0x7C).wf = false ∧ (Instr.dataB91Char 0x21).wf = true ∧
    (Instr.dataB91Char 0x7B).wf = true := by decide

/-! ## Decoding: words written out from the spec's encodings -/

/-- R61. -/
theorem test_decode_commands :
    decode [0b00000001] = .ok (.b91enc, []) ∧ decode [0b00000010] = .ok (.build, []) ∧
    decode [0b00000011] = .ok (.transmit, []) ∧ decode [0b00000100] = .ok (.modrst, []) := by decide

/-- R62. -/
theorem test_decode_illegal :
    decode [0b00000000] = .ok (.illegal 0x00, []) ∧ decode [0b00000101] = .ok (.illegal 0x05, []) ∧
    decode [0b11111111, 0x01] = .ok (.illegal 0xFF, [0x01]) := by decide

/-- R60: no octet is no command word. -/
theorem test_decode_nothing : decode [] = .error .noOctet := by decide

/-- R64: `A` is 0x82, `0` is 0x60, a space is 0x40. -/
theorem test_decode_callsign_octet :
    decodeAt .callsign 0b10000010 = .ok (.dataCallsignOctet 0x41) ∧
    decodeAt .callsign 0b01100000 = .ok (.dataCallsignOctet 0x30) ∧
    decodeAt .callsign 0b01000000 = .ok (.dataCallsignOctet 0x20) ∧
    decodeAt .callsign 0b10000011 = .error (.notThePattern .callsign) := by decide

/-- V12, V15, V16: 6E, E2, 7F. -/
theorem test_decode_ssid_octet :
    decodeAt .ssid 0b01101110 = .ok (.dataSsidOctet 0 7 0) ∧ decodeAt .ssid 0b11100010 = .ok (.dataSsidOctet 1 1 0) ∧
    decodeAt .ssid 0b01111111 = .ok (.dataSsidOctet 0 15 1) ∧
    decodeAt .ssid 0b01001110 = .error (.notThePattern .ssid) := by decide

/-- R68, R70, R72. -/
theorem test_decode_other_patterns :
    decodeAt .control 0b00000011 = .ok .dataCtrlUi ∧ decodeAt .pid 0b11110000 = .ok .dataPidNol3 ∧
    decodeAt .flag 0b01111110 = .ok .dataFlag ∧ decodeAt .base91 0b00100001 = .ok (.dataB91Char 0x21) ∧
    decodeAt .base91 0b01111011 = .ok (.dataB91Char 0x7B) ∧
    decodeAt .base91 0b01111100 = .error (.notThePattern .base91) := by decide

theorem test_table_word : decodeTableWord 8 0x02 = some .build ∧ decodeTableWord 8 0x7E = some (.illegal 0x7E) := by
  decide

/-! ## Commands -/

/-- V1, V5. -/
theorem test_b91enc :
    (after (exec .b91enc { State.reset with b91Width := 4 })).octets .b91out 4 = [0x21, 0x21, 0x21, 0x21] ∧
    (after (exec .b91enc { State.reset with b91Value := 4294967295, b91Width := 4 })).octets .b91out 4 =
      [0x5A, 0x4D, 0x34, 0x6A] := by decide +kernel

/-- V6, and `STATUS` after it. -/
theorem test_b91enc_width_5 :
    let t := after (exec .b91enc { State.reset with b91Value := 4294967295, b91Width := 5 })
    t.octets .b91out 5 = [0x5F, 0x5A, 0x4D, 0x34, 0x6A] ∧ t.readReg .status = 0x00000002 := by decide +kernel

/-- V20. -/
theorem test_build :
    let t := after (exec .build beacon)
    t.flen = 22 ∧ t.readReg .status = 0x00000002 ∧
    t.octets .fbuf 22 =
      [0x82, 0xA0, 0xA4, 0xA6, 0x40, 0x40, 0x60, 0x9C, 0x60, 0x86, 0x82, 0x98, 0x98, 0x61, 0x03, 0xF0, 0x54, 0x45, 0x53,
       0x54, 0x4E, 0xB4] := by decide +kernel

/-- V31, V32, V35, V36. -/
theorem test_build_errors :
    (after (exec .build State.reset)).readReg .status = 0x00000020 ∧
    (after (exec .build { beacon with npath := 3 })).readReg .status = 0x00000420 ∧
    (after (exec .build { beacon with plen := 257 })).readReg .status = 0x00000010 ∧
    (after (exec .build { beacon with plen := 257, addrDst := { aprs with clen := 0 } })).readReg .status = 0x00000020 := by
  decide +kernel

/-- P3: the stream of V20 with the reset configuration has 416 bits. -/
theorem test_transmit :
    let t := after (exec .transmit beacon)
    t.flen = 22 ∧ t.readReg .status = 0x00000001 ∧
    (match t.seq with | .idle => 0 | .stream f => f.T.length) = 416 := by decide +kernel

/-- V39, V39a, V39b. -/
theorem test_transmit_errors :
    (after (exec .transmit { beacon with sampleRate := 0 })).readReg .status = 0x00000050 ∧
    (after (exec .transmit { beacon with bitRate := 0 })).readReg .status = 0x00000150 ∧
    (after (exec .transmit { beacon with sampleRate := 0, bitRate := 0, plen := 300 })).readReg .status = 0x00000010 := by
  decide +kernel

/-- R171. -/
theorem test_modrst :
    let t := after (exec .modrst { State.reset with phase := 2 / 3, level := false })
    t.phase = 0 ∧ t.level = true ∧ t.readReg .status = 0x00000002 := by decide +kernel

/-- R62: `STATUS.ERR = 6`. -/
theorem test_illegal :
    (after (exec (.illegal 0x00) State.reset)).readReg .status = 0x00000060 ∧
    (after (exec (.illegal 0xFF) { State.reset with done := true })).readReg .status = 0x00000060 := by decide +kernel

/-- Log 1: the data patterns as command words. -/
theorem test_data_patterns :
    (after (exec .dataFlag State.reset)).err = .badCmd ∧ (after (exec .dataPidNol3 State.reset)).err = .badCmd ∧
    (after (exec (.dataB91Char 0x21) State.reset)).err = .badCmd ∧
    (after (exec (.dataSsidOctet 0 0 1) State.reset)).err = .badCmd ∧
    (after (exec (.dataCallsignOctet 0x41) State.reset)).err = .badCmd ∧
    (after (exec .dataCtrlUi beacon)).busy = true := by decide +kernel

/-! ## Units -/

/-- V12, V15, V16, and the packing of V15. -/
theorem test_address_octets :
    addrOctets { n0call with ssid := 7 } false 0 = [0x9C, 0x60, 0x86, 0x82, 0x98, 0x98, 0x6E] ∧
    addrOctets { wide1 with h := 1 } true 0 = [0xAE, 0x92, 0x88, 0x8A, 0x62, 0x40, 0xE2] ∧
    addrOctets (addr [0x41] 15 0) false 1 = [0x82, 0x40, 0x40, 0x40, 0x40, 0x40, 0x7F] ∧
    AddrReg.ofWord 0x0115003145444957 = { wide1 with h := 1 } := by decide +kernel

/-- V44, and the empty list of R122. -/
theorem test_fcs :
    fcs [0x31, 0x32, 0x33, 0x34, 0x35, 0x36, 0x37, 0x38, 0x39] = 0x906E ∧ fcs [] = 0x0000 := by decide +kernel

/-- V53, V55. -/
theorem test_stuff :
    stuff (bits [0xFF, 0xFF]) = [true, true, true, true, true, false, true, true, true, true, true, false, true, true, true,
      true, true, false, true] ∧
    stuff (bits [0xF0, 0x01]) = [false, false, false, false, true, true, true, true, true, false, false, false, false,
      false, false, false, false] := by decide +kernel

/-- V70, V74. -/
theorem test_nrzi :
    nrzi [false, true, true, true, true, true, true, false] true =
      ([false, false, false, false, false, false, false, true], true) ∧
    nrzi [true, false, true, false, false, true] true = ([true, false, false, true, false, false], false) := by decide +kernel

/-- V86: the ties at 1/12 and 7/12. -/
theorem test_samples : (toneSamples 32767 1200 14400 12 0).1.map BitVec.toInt =
    [16384, 28377, 32767, 28377, 16384, 0, -16384, -28377, -32767, -28377, -16384, 0] := by decide +kernel

/-- V87: the clamp. -/
theorem test_samples_clamped :
    (toneSamples 32768 1200 4800 4 0).1.map BitVec.toInt = [32767, 0, -32768, 0] := by decide +kernel

/-- V89a: the lengths of six symbols at 1000 samples and 1200 bits a second. -/
theorem test_symbol_lengths : symbolLengths 1000 1200 6 0 = [0, 1, 1, 1, 1, 1] := by decide +kernel

/-! ## Steps -/

/-- R48: while busy a write is dropped and recorded. -/
theorem test_overrun :
    let t := after (step { air [true] 0 0 [] with inbox := [.regWrite 0x15 7] })
    t.plen = 0 ∧ t.overrun = true ∧ t.busy = true := by decide +kernel

/-- R19, R11: a wider value keeps its low bits, `H` of `ADDR_DST` does not take. -/
theorem test_register_writes :
    (after (step { State.reset with inbox := [.regWrite 0x14 7] })).npath = 3 ∧
    (after (step { State.reset with inbox := [.regWrite 0x10 0xFFFFFFFFFFFFFFFF] })).readReg .addrDst = 0x00FFFFFFFFFFFFFF ∧
    (after (step { State.reset with inbox := [.regWrite 0x09 7, .regRead 0x09] })) =
      { State.reset with inbox := [.regRead 0x09] } := by decide +kernel

/-- R177 on a 0 bit from level 1: space, 40 samples. -/
theorem test_symbol_start :
    after (step (air [false, true] 0 0 [])) =
      { air [false, true] 0 0 [] with
        level := false
        seq := .stream { T := [false, true], k := 1, j := 40, tacc := 0, freq := 2200, cbuf := [] } } := by decide +kernel

/-- R178: a quarter turn at mark. -/
theorem test_sample_step :
    let t := after (step { air [true] 1 3 [] with sampleRate := 4800 })
    t.phase = 1 / 4 ∧ (match t.seq with | .idle => [] | .stream f => f.cbuf) = [32767] := by decide +kernel

/-- R181, R182: `ok` and `fail`; the refused chunk is dropped. -/
theorem test_flush :
    (after (step { air [true] 1 3 [5, 6] with sinkAnswers := [.ok] })).sinkLog = [([5, 6], .ok)] ∧
    (after (step { air [true] 1 3 [5, 6] with sinkAnswers := [.fail] })).readReg .status = 0x00000030 ∧
    after (step (air [true] 1 3 [5, 6])) = air [true] 1 3 [5, 6] := by decide +kernel

/-- R231. -/
theorem test_reset_while_busy :
    let t := after (step { air [true] 0 0 [] with overrun := true, phase := 1 / 3, inbox := [.reset] })
    t.readReg .status = 0 ∧ t.phase = 0 ∧ t.seq = .idle := by decide +kernel

/-! ## Witnesses: the hypotheses of each statement can be met -/

theorem witness_DecodeOfEncodeIsTheInstruction :
    (Instr.illegal 0x05).wf = true ∧ (Instr.dataB91Char 0x7B).wf = true ∧ (Instr.dataSsidOctet 1 15 1).wf = true := by
  decide

theorem witness_EncodeOfDecodeIsTheOctet : decodeAt .ssid 0xE2 = .ok (.dataSsidOctet 1 1 0) := by decide

theorem witness_AStepRunsTheDecodedInstruction :
    { State.reset with inbox := [.regWrite 0 0x102] }.inbox = .regWrite 0 0x102 :: [] ∧
    decode [BitVec.ofNat 8 0x102] = .ok (.build, []) ∧ decodeTableWord 8 2 = some .build := by decide

theorem witness_ResetValuesAndResetEvent :
    { onAir with inbox := [.reset] }.inbox = .reset :: [] ∧ ∃ t, step { onAir with inbox := [.reset] } = .next t :=
  ⟨rfl, _, rfl⟩

/-- The accepted V20 meets the invariant. -/
theorem onAir_inv : Inv onAir := by
  refine ⟨?_, ?_, ⟨rfl, rfl⟩, ?_, ?_, ?_⟩
  · unfold BuffersCanonical; decide +kernel
  · unfold PhaseReduced; decide +kernel
  · unfold StatusLegal; decide +kernel
  · unfold FrameChecked; decide +kernel
  · intro f hf
    have hf : f = position (stream 25 ((assemble beacon).octets .fbuf 22) 5) 0 0 [] := (Seq.stream.inj hf).symm
    subst hf
    refine ⟨?_, ?_, ?_, ?_, ?_, ?_, ?_, ?_, ?_, ?_⟩
    · unfold DescriptorOk BadAddress; decide +kernel
    · unfold RatesOk; decide +kernel
    all_goals decide +kernel

theorem witness_EveryStepKeepsTheInvariant : Inv onAir ∧ ∃ t, step onAir = .next t := ⟨onAir_inv, _, rfl⟩

/-- A kept register, one of each width, both ends of the unlisted gap 0x09 to 0x0F, and the first number past the map. -/
theorem witness_HostWritesKeepTheWritableBits :
    State.reset.busy = false ∧ regOfNumber 0x01 = some .status ∧ regOfNumber 0x02 = some .cfgSampleRate ∧
    regOfNumber 0x06 = some .cfgPreamble ∧ regOfNumber 0x10 = some .addrDst ∧ regOfNumber 0x13 = some .addrPath2 ∧
    regOfNumber 0x14 = some .npath ∧ regOfNumber 0x16 = some .flen ∧ regOfNumber 0x19 = some .b91Width ∧
    regOfNumber 0x09 = none ∧ regOfNumber 0x0F = none ∧ regOfNumber 0x17 = none ∧ regOfNumber 0x1A = none ∧
    { State.reset with inbox := [.regWrite 0x19 0x1F] }.inbox = .regWrite 0x19 0x1F :: [] := by decide

theorem witness_BufferAccessesStayInBounds :
    State.reset.busy = false ∧ { State.reset with inbox := [.pbufWrite 256 1] }.inbox = .pbufWrite 256 1 :: [] ∧
    { State.reset with inbox := [.pbufWrite 255 1] }.inbox = .pbufWrite 255 1 :: [] := by decide

theorem witness_ReadsChangeNothingAndWritesAreIdempotent :
    regOfNumber 0x00 = some .cmd ∧ regOfNumber 0x19 = some .b91Width ∧ regOfNumber 0x15 ≠ some .cmd ∧
    { State.reset with inbox := [.regWrite 0x15 4, .regWrite 0x15 4] }.inbox = .regWrite 0x15 4 :: .regWrite 0x15 4 :: [] ∧
    ∃ t u, step { State.reset with inbox := [.regWrite 0x15 4, .regWrite 0x15 4] } = .next t ∧ step t = .next u :=
  ⟨rfl, rfl, by decide, rfl, _, _, rfl, rfl⟩

theorem witness_WhileBusyTheInputsBelongToTheTransmission :
    (air [true] 0 0 []).busy = true ∧ regOfNumber 0x00 = some .cmd ∧ regOfNumber 0x19 = some .b91Width ∧
    { air [true] 0 0 [] with inbox := [.regWrite 0 4] }.inbox = .regWrite 0 4 :: [] ∧
    { air [true] 0 0 [] with inbox := [.pbufWrite 255 1] }.inbox = .pbufWrite 255 1 :: [] ∧
    { air [true] 0 0 [] with inbox := [.regRead 0x16] }.inbox = .regRead 0x16 :: [] ∧
    { air [true] 0 0 [] with inbox := [.bufRead .fbuf 287] }.inbox = .bufRead .fbuf 287 :: [] ∧
    (after (step (air [true] 0 0 []))).busy = true := by decide +kernel

theorem witness_AnyHostWriteWhileBusyIsAnOverrun :
    (air [true] 0 0 []).busy = true ∧
    { air [true] 0 0 [] with inbox := [.regWrite 0x17 0] }.inbox = .regWrite 0x17 0 :: [] ∧
    { air [true] 0 0 [] with inbox := [.pbufWrite 256 0] }.inbox = .pbufWrite 256 0 :: [] := by decide

theorem witness_OverrunIsStickyUntilReset :
    { State.reset with overrun := true }.overrun = true ∧ (∃ t, step { State.reset with overrun := true } = .next t) ∧
    ∀ rest, { State.reset with overrun := true }.inbox ≠ .reset :: rest := ⟨rfl, ⟨_, rfl⟩, by simp [State.reset]⟩

theorem witness_OutOfMemoryIsNeverRecorded : State.reset.err ≠ .outOfMemory ∧ ∃ t, step State.reset = .next t :=
  ⟨by decide, _, rfl⟩

theorem witness_idle_commands :
    State.reset.busy = false ∧ beacon.busy = false ∧ { State.reset with done := true, phase := 1 / 3 }.busy = false := by
  decide +kernel

/-- Widths 0, 5 and 15; the largest value that width 4 holds and the largest of 32 bits. -/
theorem witness_Base91WidthCorners : 4294967295 < 2 ^ 32 ∧ 5 ≤ 5 ∧ 5 ≤ 15 ∧ 68574960 < 91 ^ 4 := by decide

/-- `NPATH` at 0, 1 and 2 is not 3. -/
theorem witness_TheFrameIsLaidOutAsTheTable :
    beacon.npath ≠ 3 ∧ { beacon with npath := 1 }.npath ≠ 3 ∧ { beacon with npath := 2 }.npath ≠ 3 ∧
    1 ≤ { beacon with npath := 1 }.npath.toNat := by decide

theorem witness_AddressesRoundTrip :
    (1 ≤ n0call.clen.toNat ∧ n0call.clen.toNat ≤ 6 ∧ (∀ i, i < n0call.clen.toNat → (n0call.char i).toNat < 0x80) ∧
      n0call.char (n0call.clen.toNat - 1) ≠ 0x20) ∧
    1 ≤ (addr [0x41] 15 0).clen.toNat ∧ (addr [0x41] 15 0).char 0 ≠ 0x20 := by decide +kernel

/-- Two descriptors that differ in an unused character, an unused path register and an octet beyond `PLEN`. -/
theorem witness_TheFrameReadsOnlyItsOperands :
    let s := beacon
    let t := { beacon with
      addrDst := { aprs with call := 0x5A5A53525041 }, addrPath1 := wide1, pbuf := beacon.pbuf ++ [(4, 0x21)] }
    t.npath = s.npath ∧ t.plen = s.plen ∧ s.addrDst.clen = t.addrDst.clen ∧ s.addrDst.ssid = t.addrDst.ssid ∧
    (∀ i, i < s.addrDst.clen.toNat → s.addrDst.char i = t.addrDst.char i) ∧ s.addrSrc = t.addrSrc ∧
    (∀ i, i < s.plen.toNat → t.octet .pbuf i = s.octet .pbuf i) ∧ ¬ (1 ≤ s.npath) ∧ s.addrDst ≠ t.addrDst := by
  decide +kernel

/-- Valid descriptors: `PLEN` at 0 and at 256, `CLEN` at 1 and at 6, one and two path entries. -/
theorem witness_BuildAssemblesTheFrame :
    beacon.busy = false ∧ DescriptorOk beacon ∧
    DescriptorOk { beacon with plen := 256, addrDst := addr [0x41] 15 0 } ∧
    DescriptorOk { beacon with npath := 1, addrPath1 := wide1 } ∧
    DescriptorOk { beacon with npath := 2, addrPath1 := wide1, addrPath2 := wide1, plen := 0 } := by
  refine ⟨rfl, ?_, ?_, ?_, ?_⟩ <;> (simp only [DescriptorOk, BadAddress]; decide +kernel)

/-- One descriptor for each check, at `CLEN` 0 and 7 and `PLEN` 257. -/
theorem witness_DescriptorErrorsAreReportedInOrder :
    beacon.busy = false ∧ { beacon with npath := 3 }.npath = 3 ∧
    (beacon.npath ≠ 3 ∧ BadAddress { aprs with clen := 0 } ∧ BadAddress { aprs with clen := 7 }) ∧
    (¬BadAddress aprs ∧ BadAddress { n0call with clen := 7 } ∧ ¬BadAddress n0call) ∧
    (1 ≤ { beacon with npath := 1 }.npath ∧ BadAddress State.reset.addrPath1) ∧
    ({ beacon with npath := 2 }.npath = 2 ∧ ¬BadAddress wide1 ∧ BadAddress State.reset.addrPath2) ∧
    256 < { beacon with plen := 257 }.plen.toNat := by
  unfold BadAddress; decide +kernel

theorem witness_StuffingAddsAtMostAFifth (p r : List Bool) : [true, true] ≠ p ++ List.replicate 5 true ++ r := by
  intro h
  have := congrArg List.length h
  simp only [List.length_append, List.length_replicate, List.length_cons, List.length_nil] at this
  omega

theorem witness_SixOnesStandInFlagsOnly :
    stuff [true, true, true, true, true] = [] ++ List.replicate 5 true ++ [false] := by decide

theorem witness_TheStreamIsFlagsFrameFlags : ([0x7E, 0x03] : List Byte)[1]? = some 0x03 ∧ 7 < 8 := by decide

theorem witness_NrziInvertsOnceForEachZero :
    [false, true][0]? = some false ∧ [false, true][1]? = some true ∧
    (if 1 = 0 then some true else (nrzi [false, true] true).1[0]?) = some false := by decide

/-- An amplitude that clips, at a phase that does not, up to the largest value the clause takes. -/
theorem witness_TheSampleHasTheNamedProperties :
    (32767 : Half).toNat ≤ 32767 ∧ -32767 ≤ (sample 40000 (1 / 12)).toInt ∧ (sample 40000 (1 / 12)).toInt ≤ 32766 ∧
    (sample 32766 (1 / 4)).toInt = 32766 ∧ (sample 32767 (3 / 4)).toInt = -32767 := by decide +kernel

theorem witness_RegisterNumbersAreTheMap :
    (Reg.addrPath2, n0call) ∈
      [(Reg.addrDst, State.reset.addrDst), (.addrSrc, State.reset.addrSrc), (.addrPath1, State.reset.addrPath1),
       (.addrPath2, n0call)] ∧ 5 < 6 := by decide

theorem witness_SymbolLengthsCarryTheRemainder : 0 < 1200 ∧ 0 < 6 ∧ 5 < 6 ∧ 48000 % 1200 = 0 := by decide

theorem witness_ATransmissionHasTheStatedSampleCount : State.reset.bitRate ≠ 0 := by decide

theorem witness_IllegalOpcodesRecordBadCmd :
    State.reset.busy = false ∧ { State.reset with inbox := [.regWrite 0 0x105] }.inbox = .regWrite 0 0x105 :: [] ∧
    BitVec.ofNat 8 0x105 = 0x05#8 ∧ 0x05 ≤ (0x05#8).toNat ∧ (0x00#8 = 0x00 ∨ 0x05 ≤ (0x00#8).toNat) ∧ (air [true] 0 0 []).busy = true := by decide

theorem witness_DataPatternsActAsTheirOctets :
    beacon.busy = false ∧ DescriptorOk beacon ∧ RatesOk beacon ∧ 0x21 ≤ (0x21#7).toNat ∧ (0#7 ≠ 1 ∧ 0#7 ≠ 2) := by
  unfold DescriptorOk BadAddress RatesOk; decide +kernel

theorem witness_ZeroRatesAreRefused :
    beacon.busy = false ∧ DescriptorOk beacon ∧ { beacon with sampleRate := 0 }.sampleRate = 0 ∧
    { beacon with bitRate := 0 }.sampleRate ≠ 0 ∧ { beacon with bitRate := 0 }.bitRate = 0 ∧ beacon.bitRate ≠ 0 := by
  unfold DescriptorOk BadAddress; decide +kernel

theorem witness_TransmitIsAccepted :
    beacon.busy = false ∧ DescriptorOk beacon ∧ RatesOk beacon ∧
    ¬(DescriptorOk { beacon with bitRate := 0 } ∧ RatesOk { beacon with bitRate := 0 }) := by
  unfold DescriptorOk BadAddress RatesOk; decide +kernel

/-- The block has its turn with an empty inbox and with a turn in it. -/
theorem witness_BlocksTurn :
    BlocksTurn (air [true] 0 0 []) (air [true] 0 0 []) ∧
    BlocksTurn { air [true] 0 0 [] with inbox := [.blockTurn, .reset] } { air [true] 0 0 [] with inbox := [.reset] } :=
  ⟨.inl ⟨rfl, rfl⟩, .inr ⟨_, rfl, rfl⟩⟩

theorem witness_SymbolStartTakesTheNextBit :
    BlocksTurn (air [false] 0 0 []) (air [false] 0 0 []) ∧ (air [false] 0 0 []).seq = .stream (position [false] 0 0 []) ∧
    ([] : List Sample).length ≠ (air [false] 0 0 []).chunkMax ∧ (position [false] 0 0 []).T[0]? = some false :=
  ⟨.inl ⟨rfl, rfl⟩, rfl, by decide, rfl⟩

theorem witness_SampleStepAdvancesThenSamples :
    BlocksTurn (air [true] 1 1 [5]) (air [true] 1 1 [5]) ∧ (air [true] 1 1 [5]).seq = .stream (position [true] 1 1 [5]) ∧
    (position [true] 1 1 [5]).cbuf.length ≠ (air [true] 1 1 [5]).chunkMax ∧ 0 < (position [true] 1 1 [5]).j :=
  ⟨.inl ⟨rfl, rfl⟩, rfl, by decide, by decide⟩

/-- A full chunk in the middle, and a last chunk that is not full; each answer. -/
theorem witness_AFlushWaitsForTheSinksAnswer :
    BlocksTurn (air [true] 1 3 [5, 6]) (air [true] 1 3 [5, 6]) ∧
    (air [true] 1 3 [5, 6]).seq = .stream (position [true] 1 3 [5, 6]) ∧
    Offers (air [true] 1 3 [5, 6]) (position [true] 1 3 [5, 6]) ∧ Offers (air [true] 1 0 [5]) (position [true] 1 0 [5]) ∧
    (air [true] 1 3 [5, 6]).sinkAnswers = [] ∧
    { air [true] 1 0 [5] with sinkAnswers := [.ok] }.sinkAnswers = .ok :: [] := by
  refine ⟨.inl ⟨rfl, rfl⟩, rfl, .inl (by decide), .inr (by decide), rfl, rfl⟩

theorem witness_ARefusedChunkAbortsTheTransmission :
    let s := { air [true] 1 0 [5] with sinkAnswers := [.fail] }
    BlocksTurn s s ∧ s.seq = .stream (position [true] 1 0 [5]) ∧ Offers s (position [true] 1 0 [5]) ∧
    s.sinkAnswers = .fail :: [] := ⟨.inl ⟨rfl, rfl⟩, rfl, .inr (by decide), rfl⟩

theorem witness_TheLastStepCompletes :
    BlocksTurn (air [true] 1 0 []) (air [true] 1 0 []) ∧ (air [true] 1 0 []).seq = .stream (position [true] 1 0 []) ∧
    (position [true] 1 0 []).cbuf = [] ∧ (position [true] 1 0 []).j = 0 ∧
    (position [true] 1 0 []).T.length ≤ (position [true] 1 0 []).k := ⟨.inl ⟨rfl, rfl⟩, rfl, rfl, rfl, by decide⟩

theorem witness_AnIdleBlockStaysAsItIs :
    BlocksTurn { State.reset with inbox := [.blockTurn] } State.reset ∧ State.reset.seq = .idle :=
  ⟨.inr ⟨_, rfl, rfl⟩, rfl⟩

/-- Every state takes a step: one at a symbol start of a 0 bit, one at a MODRST. -/
theorem witness_every_step :
    (∃ t, step (air [false] 0 0 []) = .next t) ∧ ∃ t, step { State.reset with inbox := [.regWrite 0 4] } = .next t :=
  ⟨⟨_, rfl⟩, _, rfl⟩

/-- IDLE to STREAM; STREAM to IDLE by completion, by a refused chunk and by reset; STREAM to STREAM. -/
theorem witness_TheSequencerHasTheseTransitions :
    (beacon.seq = .idle ∧ (after (step { beacon with inbox := [.regWrite 0 3] })).busy = true) ∧
    ((air [true] 1 0 []).busy = true ∧ (after (step (air [true] 1 0 []))).seq = .idle) ∧
    (after (step { air [true] 1 0 [5] with sinkAnswers := [.fail] })).seq = .idle ∧
    (after (step { air [true] 0 0 [] with inbox := [.reset] })).seq = .idle ∧
    (after (step (air [true] 0 0 []))).busy = true := by decide +kernel

theorem witness_ChunksAreFullButTheLast : Inv onAir ∧ ∃ t, step onAir = .next t := ⟨onAir_inv, _, rfl⟩

/-- A step of the block, one that takes a host access, and the one that completes. -/
theorem witness_TheOutputIsWhatTheStreamDetermines :
    (air [true] 0 0 []).seq = .stream (position [true] 0 0 []) ∧ (air [true] 0 0 []).done = false ∧
    (∃ t, step (air [true] 0 0 []) = .next t) ∧
    (after (step { air [true] 0 0 [] with inbox := [.regWrite 0x15 4] })).busy = true ∧
    (after (step (air [true] 1 0 []))).seq = .idle ∧ (after (step (air [true] 1 0 []))).done = true := by
  refine ⟨rfl, rfl, ⟨_, rfl⟩, by decide +kernel, by decide +kernel, by decide +kernel⟩

/-- One symbol of one sample, `CHUNK_MAX = 2`: one chunk. -/
theorem witness_ATransmissionCompletesWhenTheSinkAccepts :
    let s := { air [true] 0 0 [] with bitRate := 48000, sinkAnswers := [.ok] }
    let f := position [true] 0 0 []
    s.seq = .stream f ∧ s.inbox = [] ∧ f.cbuf.length ≤ s.chunkMax ∧
    1 = (f.cbuf.length + (s.remaining f).1.length + s.chunkMaxLess1) / s.chunkMax ∧
    s.sinkAnswers = List.replicate 1 .ok ++ [] := by decide +kernel

/-- Two states with another history: MODRST, then TRANSMIT, is accepted in both. -/
theorem witness_AfterModrstTheSamplesDependOnTheInputsAlone :
    let s₁ := beacon
    let s₂ := { beacon with phase := 2 / 3, level := false, flen := 18, done := true }
    s₁.busy = false ∧ s₂.busy = false ∧
    (∀ r, r ∉ [Reg.status, .flen, .b91Value, .b91Width] → s₂.readReg r = s₁.readReg r) ∧
    (∀ i, i < s₁.plen.toNat → s₂.octet .pbuf i = s₁.octet .pbuf i) ∧
    (after (exec .transmit (after (exec .modrst s₁)))).busy = true ∧
    (after (exec .transmit (after (exec .modrst s₂)))).busy = true := by
  refine ⟨by decide +kernel, by decide +kernel, ?_, by decide +kernel, by decide +kernel, by decide +kernel⟩
  intro r hr
  cases r <;> first | rfl | simp at hr

end Sys2Proof.Tests
end

section
/-! SUPPORT. Every step keeps the invariant: the residue of the check sequence, then the invariant through each operation,
command, step of a transmission and event. -/

namespace Sys2Proof.Machine

/-! ## The residue of the check sequence (R124) -/

/-- The eight shifts that follow the entry of an octet (R121). -/
def crcShift8 (crc : Half) : Half :=
  crcShift (crcShift (crcShift (crcShift (crcShift (crcShift (crcShift (crcShift crc)))))))

theorem crcOctet_eq_crcShift8 (crc : Half) (b : Byte) : crcOctet crc b = crcShift8 (crc ^^^ b.zeroExtend 16) := rfl

/-- A shift of the register is linear over GF(2). -/
theorem crcShift_xor (a b : Half) : crcShift (a ^^^ b) = crcShift a ^^^ crcShift b := by
  have hcancel : (a >>> 1 ^^^ crcPoly) ^^^ (b >>> 1 ^^^ crcPoly) = a >>> 1 ^^^ b >>> 1 := by
    rw [BitVec.xor_comm (b >>> 1), ← BitVec.xor_assoc, BitVec.xor_assoc (a >>> 1), BitVec.xor_self, BitVec.xor_zero]
  unfold crcShift
  rw [BitVec.getLsbD_xor, BitVec.ushiftRight_xor_distrib]
  cases a.getLsbD 0 <;> cases b.getLsbD 0
  · rfl
  · exact BitVec.xor_assoc _ _ _
  · show a >>> 1 ^^^ b >>> 1 ^^^ crcPoly = a >>> 1 ^^^ crcPoly ^^^ b >>> 1
    ac_rfl
  · exact hcancel.symm

theorem crcShift8_xor (a b : Half) : crcShift8 (a ^^^ b) = crcShift8 a ^^^ crcShift8 b := by
  simp only [crcShift8, crcShift_xor]

/-- Where bit 0 is 0 the register only shifts: an octet that stands `n + 1` places up moves one place down. -/
theorem crcShift_shiftLeft (b : Byte) {n : Nat} (hn : n < 8) :
    crcShift (b.zeroExtend 16 <<< (n + 1)) = b.zeroExtend 16 <<< n := by
  have hzero : (b.zeroExtend 16 <<< (n + 1)).getLsbD 0 = false := by simp
  rw [crcShift, hzero, if_neg Bool.false_ne_true]
  apply BitVec.eq_of_getLsbD_eq
  intro i hi
  have hidx : 1 + i - (n + 1) = i - n := by omega
  rw [BitVec.getLsbD_ushiftRight, BitVec.getLsbD_shiftLeft, BitVec.getLsbD_shiftLeft, hidx, BitVec.zeroExtend,
    BitVec.getLsbD_setWidth]
  by_cases hb : i - n < 8
  · grind
  · simp [BitVec.getLsbD_of_ge b (i - n) (by omega)]

/-- An octet in the high half moves down whole. -/
theorem crcShift8_shiftLeft (b : Byte) : crcShift8 (b.zeroExtend 16 <<< 8) = b.zeroExtend 16 := by
  simp only [crcShift8]
  rw [crcShift_shiftLeft b (n := 7) (by omega), crcShift_shiftLeft b (n := 6) (by omega),
    crcShift_shiftLeft b (n := 5) (by omega), crcShift_shiftLeft b (n := 4) (by omega),
    crcShift_shiftLeft b (n := 3) (by omega), crcShift_shiftLeft b (n := 2) (by omega),
    crcShift_shiftLeft b (n := 1) (by omega), crcShift_shiftLeft b (n := 0) (by omega), BitVec.shiftLeft_zero]

/-- The register with its own complemented low octet added: the low octet is all ones, the high octet stays. -/
theorem xor_complement_low (crc : Half) :
    crc ^^^ ((crc ^^^ 0xFFFF).extractLsb' 0 8).zeroExtend 16 = (crc.extractLsb' 8 8).zeroExtend 16 <<< 8 ^^^ 0xFF := by
  apply BitVec.eq_of_getLsbD_eq
  intro i hi
  simp only [BitVec.getLsbD_xor, BitVec.getLsbD_shiftLeft, BitVec.getLsbD_extractLsb', BitVec.zeroExtend,
    BitVec.getLsbD_setWidth]
  interval_cases i <;> simp

/-- A high octet and its complement, one above the other, make an octet of ones. -/
theorem high_xor_complement (crc : Half) :
    (crc.extractLsb' 8 8).zeroExtend 16 ^^^ ((crc ^^^ 0xFFFF).extractLsb' 8 8).zeroExtend 16 = 0xFF := by
  apply BitVec.eq_of_getLsbD_eq
  intro i hi
  interval_cases i <;> simp

theorem crcShift8_residue : crcShift8 (0xFF ^^^ crcShift8 0xFF) = 0xF0B8 := by
  simp [crcShift8, crcShift, crcPoly]

/-- The octets of any sequence followed by its check sequence leave the residue 0xF0B8 (R124): each of the two octets
replaces what the register held of the sequence by ones. -/
theorem crcReg_append_fcsOctets (l : List Byte) : crcReg (l ++ fcsOctets l) = 0xF0B8 := by
  rw [crcReg_append]
  simp only [fcsOctets, fcs, List.foldl_cons, List.foldl_nil]
  generalize crcReg l = crc
  have hlow : crcOctet crc ((crc ^^^ 0xFFFF).extractLsb' 0 8) = (crc.extractLsb' 8 8).zeroExtend 16 ^^^ crcShift8 0xFF := by
    rw [crcOctet_eq_crcShift8, xor_complement_low, crcShift8_xor, crcShift8_shiftLeft]
  rw [hlow, crcOctet_eq_crcShift8, BitVec.xor_assoc, BitVec.xor_comm (crcShift8 0xFF), ← BitVec.xor_assoc,
    high_xor_complement, crcShift8_residue]

/-! ## What the invariant asks of each part -/

/-- An error with an operand that R201 lists for it; OUT_OF_MEMORY is none (R204). -/
def ErrorLegal (e : ErrorCode) (n : BitVec 3) : Prop :=
  e ≠ .outOfMemory ∧ (e = .badAddr → n.toNat ≤ 4) ∧ (e = .badConfig → n.toNat ≤ 1) ∧
    (e ≠ .badAddr → e ≠ .badConfig → n = 0)

theorem errorLegal_badCmd : ErrorLegal .badCmd 0 := by simp [ErrorLegal]

theorem errorLegal_sinkFail : ErrorLegal .sinkFail 0 := by simp [ErrorLegal]

theorem errorLegal_of_validate {s : State} {e : ErrorCode} {n : BitVec 3} (h : validate s = some (e, n)) :
    ErrorLegal e n := by
  rcases validate_some h with ⟨rfl, hn⟩ | ⟨rfl, rfl⟩ <;> simp [ErrorLegal, *]

theorem errorLegal_of_configCheck {s : State} {e : ErrorCode} {n : BitVec 3} (h : configCheck s = some (e, n)) :
    ErrorLegal e n := by
  rcases configCheck_cases s with ⟨-, hc⟩ | ⟨-, -, hc⟩ | ⟨-, hc⟩ <;> cases h.symm.trans hc
  · simp [ErrorLegal]
  · simp [ErrorLegal]

theorem ratesOk_of_configCheck {s : State} (h : configCheck s = none) : RatesOk s := by
  rcases configCheck_cases s with ⟨-, hc⟩ | ⟨-, -, hc⟩ | ⟨hr, -⟩
  · cases h.symm.trans hc
  · cases h.symm.trans hc
  · exact hr

/-- A legal error on a command that is not done is a legal outcome (R17, R205). -/
theorem statusLegal_raise {s : State} {e : ErrorCode} {n : BitVec 3} (hd : s.done = false) (he : ErrorLegal e n) :
    StatusLegal (s.raise e n) := by
  obtain ⟨hmem, haddr, hconf, hzero⟩ := he
  exact ⟨hmem, haddr, hconf, hzero, by simp [hd], by simp⟩

/-- Completion without an error is a legal outcome (R17). -/
theorem statusLegal_of_done {s : State} (hb : s.busy = false) (he : s.err = .none) (hn : s.einfo = 0) : StatusLegal s := by
  simp [StatusLegal, hb, he, hn]

theorem transmissionConsistent_of_idle {s : State} (h : s.seq = .idle) : TransmissionConsistent s := by
  intro f hf
  rw [h] at hf
  cases hf

theorem State.rateWarning_eq (s : State) :
    s.rateWarning = decide (s.sampleRate.toNat % s.bitRate.toNat ≠ 0) := by
  rw [Bool.eq_iff_iff, decide_eq_true_iff]
  exact bne_iff_ne

/-- A reduced phase, whatever it was before (R153). -/
theorem phaseAdvance_mem (p : Rat) (freq rate : Nat) : 0 ≤ phaseAdvance p freq rate ∧ phaseAdvance p freq rate < 1 := by
  rw [phaseAdvance_eq]
  exact ⟨Int.fract_nonneg _, Int.fract_lt_one _⟩

/-- After assembly `FLEN` is the length of the frame that stands in `FBUF` (R108). -/
theorem frameChecked_assemble {s : State} (h : DescriptorOk s) : FrameChecked (assemble s) := by
  have hbounds := frameLength_le h
  right
  rw [assemble_flen_toNat h]
  refine ⟨hbounds.1, hbounds.2, fun i hi => ?_, ?_⟩
  · rw [assemble_read h hi, List.getElem?_eq_getElem (by rw [frame_length h.1]; exact hi)]
    rfl
  · rw [assemble_octets h]
    exact crcReg_append_fcsOctets (body s)

/-! ## The invariant, operation by operation -/

/-- The invariant does not speak of what is outside the block, nor of `OVERRUN`. -/
theorem Inv.takenOff {s : State} (h : Inv s) (rest : List Event) : Inv { s with inbox := rest } := h

theorem Inv.markOverrun {s : State} (h : Inv s) : Inv s.markOverrun := h

theorem Inv.logRead {s : State} (h : Inv s) (v : DWord) : Inv (s.logRead v) := h

/-- An error ends what runs (R205). -/
theorem Inv.raise {s : State} {e : ErrorCode} {n : BitVec 3} (h : Inv s) (hd : s.done = false) (he : ErrorLegal e n) :
    Inv (s.raise e n) := by
  obtain ⟨hbuf, hphase, hbits, -, hframe, -⟩ := h
  exact ⟨hbuf, hphase, hbits, statusLegal_raise hd he, hframe, transmissionConsistent_of_idle rfl⟩

/-- The reset event, in whatever state it comes (R231). -/
theorem inv_resetEvent (s : State) : Inv (resetEvent s) :=
  ⟨⟨rfl, rfl, rfl⟩, ⟨le_refl (0 : ℚ), one_pos⟩, ⟨rfl, rfl⟩, statusLegal_of_done rfl rfl rfl, .inl rfl,
    transmissionConsistent_of_idle rfl⟩

/-- A register write while idle: only the hardwired bits could suffer (R11). -/
theorem Inv.writeReg {s : State} (h : Inv s) (hs : s.seq = .idle) (r : Reg) (v : Nat) : Inv (s.writeReg r v) := by
  obtain ⟨hbuf, hphase, ⟨hdst, hsrc⟩, hstatus, hframe, -⟩ := h
  have hidle : (s.writeReg r v).seq = .idle := by cases r <;> exact hs
  have hbits : HardwiredBitsZero (s.writeReg r v) := by
    cases r
    case addrDst => exact ⟨rfl, hsrc⟩
    case addrSrc => exact ⟨hdst, rfl⟩
    all_goals exact ⟨hdst, hsrc⟩
  refine ⟨?_, ?_, hbits, ?_, ?_, transmissionConsistent_of_idle hidle⟩
  · cases r <;> exact hbuf
  · cases r <;> exact hphase
  · cases r <;> exact hstatus
  · cases r <;> exact hframe

/-- A payload write while idle keeps `PBUF` canonical (R20, R43). -/
theorem Inv.writePbuf {s : State} (h : Inv s) (hs : s.seq = .idle) (i : Nat) (b : Byte) : Inv (s.writePbuf i b) := by
  by_cases hi : i < 256
  · rw [State.writePbuf_of_lt s b hi]
    obtain ⟨⟨hpbuf, hfbuf, hout⟩, hphase, hbits, hstatus, hframe, -⟩ := h
    exact ⟨⟨Memory.wf_write b hpbuf hi, hfbuf, hout⟩, hphase, hbits, hstatus, hframe, transmissionConsistent_of_idle hs⟩
  · rw [State.writePbuf_of_le s b (Nat.not_lt.1 hi)]
    exact h

/-! ### Commands -/

/-- What a command's operation starts from: an idle block whose outcome fields are cleared (R61). -/
structure ReadyForCommand (s : State) : Prop where
  inv : Inv s
  idle : s.seq = .idle
  done : s.done = false
  err : s.err = .none
  einfo : s.einfo = 0

theorem readyForCommand_clearCommandStatus {s : State} (h : Inv s) (hb : s.busy = false) :
    ReadyForCommand s.clearCommandStatus := by
  have hs := (State.busy_eq_false_iff s).1 hb
  obtain ⟨hbuf, hphase, hbits, -, hframe, -⟩ := h
  exact ⟨⟨hbuf, hphase, hbits, statusLegal_of_done hb rfl rfl, hframe, transmissionConsistent_of_idle hs⟩, hs, rfl, rfl, rfl⟩

namespace ReadyForCommand

variable {s : State} (h : ReadyForCommand s)
include h

theorem busy : s.busy = false := (State.busy_eq_false_iff s).2 h.idle

theorem inv_markDone : Inv s.markDone := by
  obtain ⟨hbuf, hphase, hbits, -, hframe, -⟩ := h.inv
  exact ⟨hbuf, hphase, hbits, statusLegal_of_done h.busy h.err h.einfo, hframe, transmissionConsistent_of_idle h.idle⟩

/-- Assembly leaves the block ready, with a checked frame (R108). -/
theorem assemble (hok : DescriptorOk s) : ReadyForCommand (assemble s) := by
  obtain ⟨⟨hpbuf, hfbuf, hout⟩, hphase, hbits, hstatus, -, -⟩ := h.inv
  have hframe := frameChecked_assemble hok
  obtain ⟨m, n, heq, -, -, -, hwf⟩ := assemble_spec hok
  rw [heq] at hframe ⊢
  exact ⟨⟨⟨hpbuf, hwf hfbuf, hout⟩, hphase, hbits, hstatus, hframe, transmissionConsistent_of_idle h.idle⟩,
    h.idle, h.done, h.err, h.einfo⟩

/-- Acceptance establishes what a running transmission needs (R175). -/
theorem inv_startStream (hok : DescriptorOk s) (hrates : RatesOk s) (hlen : s.flen.toNat = frameLength s) :
    Inv (startStream s) := by
  obtain ⟨hbuf, hphase, hbits, hstatus, hframe, -⟩ := h.inv
  have hstatus' : StatusLegal (startStream s) := by
    simp [StatusLegal, startStream, h.err, h.einfo, h.done]
  refine ⟨hbuf, hphase, hbits, hstatus', hframe, fun f hf => ?_⟩
  cases hf
  exact ⟨hok, hrates, hlen, rfl, Nat.zero_le _, Nat.zero_le _, by simp, fun _ => ⟨rfl, rfl⟩,
    fun hk => absurd hk (lt_irrefl 0), s.rateWarning_eq⟩

theorem inv_accepted (hok : DescriptorOk s) (hrates : RatesOk s) : Inv (startStream (Machine.assemble s)) := by
  have hready := h.assemble hok
  obtain ⟨m, n, heq, hlen, -⟩ := assemble_spec hok
  rw [heq] at hready ⊢
  exact hready.inv_startStream hok hrates hlen

theorem inv_b91encCommand : Inv (b91encCommand s) := by
  obtain ⟨⟨hpbuf, hfbuf, hout⟩, hphase, hbits, -, hframe, -⟩ := h.inv
  have hwf : Memory.wf 15 (b91encCommand s).b91out = true :=
    Memory.wf_writeList _ hout (by rw [base91_length]; omega)
  exact ⟨⟨hpbuf, hfbuf, hwf⟩, hphase, hbits, statusLegal_of_done h.busy h.err h.einfo, hframe,
    transmissionConsistent_of_idle h.idle⟩

theorem inv_modrstCommand : Inv (modrstCommand s) := by
  obtain ⟨hbuf, -, hbits, -, hframe, -⟩ := h.inv
  exact ⟨hbuf, ⟨le_refl (0 : ℚ), one_pos⟩, hbits, statusLegal_of_done h.busy h.err h.einfo, hframe,
    transmissionConsistent_of_idle h.idle⟩

theorem inv_buildCommand : Inv (buildCommand s) := by
  rcases buildCommand_cases s with ⟨e, n, hv, hb⟩ | ⟨hv, hb⟩ <;> rw [hb]
  · exact h.inv.raise h.done (errorLegal_of_validate hv)
  · exact (h.assemble ((validate_eq_none_iff s).1 hv)).inv_markDone

theorem inv_transmitCommand : Inv (transmitCommand s) := by
  rcases transmitCommand_cases s with ⟨e, n, hv, ht⟩ | ⟨e, n, -, hc, ht⟩ | ⟨hv, hc, ht⟩ <;> rw [ht]
  · exact h.inv.raise h.done (errorLegal_of_validate hv)
  · exact h.inv.raise h.done (errorLegal_of_configCheck hc)
  · exact h.inv_accepted ((validate_eq_none_iff s).1 hv) (ratesOk_of_configCheck hc)

/-- Every command word (R61, R62). -/
theorem inv_commandOf (op : Byte) : Inv (commandOf op s) := by
  rcases commandOf_cases op with ⟨-, ho⟩ | ⟨-, ho⟩ | ⟨-, ho⟩ | ⟨-, ho⟩ | ⟨-, -, -, -, ho⟩ <;> rw [ho]
  · exact h.inv_b91encCommand
  · exact h.inv_buildCommand
  · exact h.inv_transmitCommand
  · exact h.inv_modrstCommand
  · exact h.inv.raise h.done errorLegal_badCmd

end ReadyForCommand

/-- A write of `CMD`, dropped or run (R48, R61). -/
theorem Inv.issue_commandOf {s : State} (h : Inv s) (op : Byte) : Inv (s.issue (commandOf op)) := by
  cases hb : s.busy
  · rw [State.issue_idle _ _ hb]
    exact (readyForCommand_clearCommandStatus h hb).inv_commandOf op
  · rw [State.issue_busy _ _ hb]
    exact h.markOverrun

/-! ### The steps of a transmission -/

/-- A running transmission is neither done nor failed (R17). -/
theorem Inv.outcome_of_stream {s : State} {f : InFlight} (h : Inv s) (hs : s.seq = .stream f) :
    s.done = false ∧ s.err = .none ∧ s.einfo = 0 := by
  obtain ⟨-, -, -, ⟨-, -, -, hzero, -, hrun⟩, -, -⟩ := h
  obtain ⟨hd, he⟩ := hrun ((State.busy_eq_true_iff s).2 ⟨f, hs⟩)
  exact ⟨hd, he, hzero (by simp [he]) (by simp [he])⟩

/-- The outcome fields of a transmission that goes on are legal. -/
theorem statusLegal_of_running {s : State} (hd : s.done = false) (he : s.err = .none) (hn : s.einfo = 0) :
    StatusLegal s := by
  simp [StatusLegal, hd, he, hn]

section
variable {s : State} {f : InFlight} (h : Inv s) (hs : s.seq = .stream f)
include h hs

theorem Inv.flush : Inv (flush s f) := by
  obtain ⟨hd, he, hn⟩ := h.outcome_of_stream hs
  rcases flush_cases s f with ⟨-, hf⟩ | ⟨answers, -, hf⟩ | ⟨answers, -, hf⟩ <;> rw [hf]
  · exact h
  · obtain ⟨hbuf, hphase, hbits, -, hframe, hrun⟩ := h
    obtain ⟨hok, hrates, hlen, hT, hk, -, htacc, hstart, hfreq, hwarn⟩ := hrun f hs
    refine ⟨hbuf, hphase, hbits, statusLegal_of_running hd he hn, hframe, fun g hg => ?_⟩
    cases hg
    exact ⟨hok, hrates, hlen, hT, hk, Nat.zero_le _, htacc, fun hk0 => ⟨(hstart hk0).1, rfl⟩, hfreq, hwarn⟩
  · exact h.raise hd errorLegal_sinkFail

theorem Inv.sampleStep (hfull : f.cbuf.length ≠ s.chunkMax) (hj : 0 < f.j) : Inv (sampleStep s f) := by
  obtain ⟨hd, he, hn⟩ := h.outcome_of_stream hs
  obtain ⟨hbuf, -, hbits, -, hframe, hrun⟩ := h
  obtain ⟨hok, hrates, hlen, hT, hk, hcbuf, htacc, hstart, hfreq, hwarn⟩ := hrun f hs
  have hroom : (f.cbuf ++ [sample s.ampl (phaseAdvance s.phase f.freq.toNat s.sampleRate.toNat)]).length ≤ s.chunkMax := by
    rw [List.length_append, List.length_singleton]; omega
  have hpos : f.k ≠ 0 := fun hk0 => by have := (hstart hk0).1; omega
  refine ⟨hbuf, phaseAdvance_mem _ _ _, hbits, statusLegal_of_running hd he hn, hframe, fun g hg => ?_⟩
  cases hg
  exact ⟨hok, hrates, hlen, hT, hk, hroom, htacc, fun hk0 => absurd hk0 hpos, hfreq, hwarn⟩

theorem Inv.symbolStart {b : Bool} (hT' : f.T[f.k]? = some b) : Inv (symbolStart s f b) := by
  obtain ⟨hd, he, hn⟩ := h.outcome_of_stream hs
  obtain ⟨hbuf, hphase, hbits, -, hframe, hrun⟩ := h
  obtain ⟨hok, hrates, hlen, hT, -, hcbuf, htacc, -, -, hwarn⟩ := hrun f hs
  have hk : f.k < f.T.length := (List.getElem?_eq_some_iff.1 hT').1
  have hcarry : (f.tacc + s.sampleRate.toNat) % s.bitRate.toNat = (f.k + 1) * s.sampleRate.toNat % s.bitRate.toNat := by
    rw [htacc, Nat.mod_add_mod, Nat.succ_mul]
  refine ⟨hbuf, hphase, hbits, statusLegal_of_running hd he hn, hframe, fun g hg => ?_⟩
  cases hg
  exact ⟨hok, hrates, hlen, hT, hk, hcbuf, hcarry, fun hk0 => absurd hk0 (Nat.succ_ne_zero _), fun _ => rfl, hwarn⟩

theorem Inv.complete : Inv (complete s) := by
  obtain ⟨-, he, hn⟩ := h.outcome_of_stream hs
  obtain ⟨hbuf, hphase, hbits, -, hframe, -⟩ := h
  exact ⟨hbuf, hphase, hbits, statusLegal_of_done rfl he hn, hframe, transmissionConsistent_of_idle rfl⟩

end

/-- The block's own step (R176). -/
theorem Inv.blockStep {s : State} (h : Inv s) : Inv (blockStep s) := by
  rcases hs : s.seq with _ | f
  · rw [blockStep_idle hs]
    exact h
  · rcases blockStep_cases hs with ⟨-, hb⟩ | ⟨hfull, hj, hb⟩ | ⟨-, -, b, hT, hb⟩ | ⟨-, -, -, -, hb⟩ | ⟨-, -, -, hb⟩ <;> rw [hb]
    · exact h.flush hs
    · exact h.sampleStep hs hfull hj
    · exact h.symbolStart hs hT
    · exact h.flush hs
    · exact h.complete hs

/-! ### Events -/

theorem Inv.hostRegWrite {s : State} (h : Inv s) (n v : Nat) : Inv (takeEvent (.regWrite n v) s) := by
  cases hb : s.busy
  · rcases hr : regOfNumber n with _ | r
    · rw [takeEvent_regWrite_none s n v hb hr]
      exact h
    · rw [takeEvent_regWrite_idle s n v hb hr]
      exact h.writeReg ((State.busy_eq_false_iff s).1 hb) r v
  · rw [takeEvent_regWrite_busy s n v hb]
    exact h.markOverrun

theorem Inv.hostPbufWrite {s : State} (h : Inv s) (i : Nat) (b : Byte) : Inv (takeEvent (.pbufWrite i b) s) := by
  cases hb : s.busy
  · rw [takeEvent_pbufWrite_idle s i b hb]
    exact h.writePbuf ((State.busy_eq_false_iff s).1 hb) i b
  · rw [takeEvent_pbufWrite_busy s i b hb]
    exact h.markOverrun

theorem Inv.takeEvent {s : State} (h : Inv s) (e : Event) : Inv (takeEvent e s) := by
  cases e with
  | regWrite n v => exact h.hostRegWrite n v
  | regRead n => exact h.logRead _
  | pbufWrite i b => exact h.hostPbufWrite i b
  | bufRead space i => exact h.logRead _
  | reset => exact inv_resetEvent s
  | blockTurn => exact h.blockStep

/-- Settles O9: the block's own step, a command and every other event keep each part of the invariant. -/
theorem everyStepKeepsTheInvariant : Obligations.EveryStepKeepsTheInvariant := by
  intro s t h hstep
  rcases step_cases hstep with ⟨-, rfl⟩ | ⟨v, rest, -, rfl⟩ | ⟨e, rest, -, -, rfl⟩
  · exact h.blockStep
  · exact (h.takenOff rest).issue_commandOf _
  · exact (h.takenOff rest).takeEvent e

end Sys2Proof.Machine
end

section
/-! SUPPORT. The statements about the registers, what the frame reads, the idle block and the modulator state. -/

namespace Sys2Proof.Machine

/-! ## `STATUS` (R17) -/

theorem State.busy_iff_seq_ne_idle (s : State) : s.busy = true ↔ s.seq ≠ .idle := by
  rw [← Bool.not_eq_false, Ne, State.busy_eq_false_iff]

/-- What stands at each bit of `STATUS` (R17). -/
def State.statusBit (s : State) (i : Nat) : Bool :=
  if i = 0 then s.busy
  else if i = 1 then s.done
  else if i < 4 then false
  else if i < 8 then s.err.code.getLsbD (i - 4)
  else if i < 11 then s.einfo.getLsbD (i - 8)
  else if i = 11 then s.warnRate
  else if i = 12 then s.overrun
  else false

theorem State.getLsbD_readReg_status (s : State) {i : Nat} (hi : i < 64) :
    (s.readReg .status).getLsbD i = s.statusBit i := by
  simp only [State.readReg, State.statusWord, BitVec.zeroExtend, BitVec.getLsbD_setWidth, BitVec.getLsbD_append,
    BitVec.getLsbD_ofBool, BitVec.getLsbD_zero, State.statusBit]
  interval_cases i <;> rfl

/-- A field of `STATUS` is read bit by bit. -/
theorem State.readReg_status_field {s : State} {lo len : Nat} {v : BitVec len} (hlen : lo + len ≤ 64)
    (h : ∀ i, i < len → s.statusBit (lo + i) = v.getLsbD i) : (s.readReg .status).extractLsb' lo len = v := by
  apply BitVec.eq_of_getLsbD_eq
  intro i hi
  rw [BitVec.getLsbD_extractLsb', s.getLsbD_readReg_status (by omega), h i hi, decide_eq_true hi, Bool.true_and]

/-- Bits 3:2 are reserved (R17, R19). -/
theorem State.readReg_status_reserved_low (s : State) : (s.readReg .status).extractLsb' 2 2 = 0 :=
  State.readReg_status_field (by omega) fun i hi => by interval_cases i <;> rfl

theorem State.readReg_status_err (s : State) : (s.readReg .status).extractLsb' 4 4 = s.err.code :=
  State.readReg_status_field (by omega) fun i hi => by interval_cases i <;> rfl

theorem State.readReg_status_einfo (s : State) : (s.readReg .status).extractLsb' 8 3 = s.einfo :=
  State.readReg_status_field (by omega) fun i hi => by interval_cases i <;> rfl

/-- Bits 31:13 are reserved, and a read is zero-extended (R17, R19, R46). -/
theorem State.readReg_status_reserved_high (s : State) : (s.readReg .status).extractLsb' 13 51 = 0 :=
  State.readReg_status_field (by omega) fun i hi => by interval_cases i <;> rfl

/-- Settles O10: each flag and field is read at its bits. -/
theorem statusBitsAreTheFlags : Obligations.StatusBitsAreTheFlags := by
  refine ⟨rfl, rfl, rfl, rfl, rfl, rfl, rfl, fun s => ?_⟩
  exact ⟨s.getLsbD_readReg_status (by omega), s.getLsbD_readReg_status (by omega), s.readReg_status_reserved_low,
    s.readReg_status_err, s.readReg_status_einfo, s.getLsbD_readReg_status (by omega),
    s.getLsbD_readReg_status (by omega), s.readReg_status_reserved_high, s.busy_iff_seq_ne_idle⟩

/-! ## Register writes (R19, R46) -/

/-- The bits of a written value that a register stores (R11, R19, R46). -/
def Reg.writableBits : Reg → DWord
  | .cmd => 0
  | .status => 0
  | .flen => 0
  | .cfgSampleRate => 0xFFFFFFFF
  | .cfgBitRate => 0xFFFFFFFF
  | .cfgMark => 0xFFFFFFFF
  | .cfgSpace => 0xFFFFFFFF
  | .cfgPreamble => 0xFFFF
  | .cfgRest => 0xFFFF
  | .cfgAmpl => 0xFFFF
  | .addrDst => 0x00FFFFFFFFFFFFFF
  | .addrSrc => 0x00FFFFFFFFFFFFFF
  | .addrPath1 => 0x01FFFFFFFFFFFFFF
  | .addrPath2 => 0x01FFFFFFFFFFFFFF
  | .npath => 0x3
  | .plen => 0xFFFF
  | .b91Value => 0xFFFFFFFF
  | .b91Width => 0xF

/-- `trunc_N`, read back zero-extended, keeps the low `N` bits (R19). -/
theorem zeroExtend_ofNat_eq_and (n v : Nat) :
    (BitVec.ofNat n v).zeroExtend 64 = BitVec.ofNat 64 v &&& BitVec.ofNat 64 (2 ^ n - 1) := by
  apply BitVec.eq_of_getLsbD_eq
  intro i hi
  simp only [BitVec.zeroExtend, BitVec.getLsbD_setWidth, BitVec.getLsbD_and, BitVec.getLsbD_ofNat,
    Nat.testBit_two_pow_sub_one, decide_eq_true hi, Bool.true_and, Bool.and_comm]

/-- A register reads back the writable bits of what was written to it. -/
theorem State.readReg_writeReg_same (s : State) {r : Reg} (v : Nat) (hr : r.writableBits ≠ 0) :
    (s.writeReg r v).readReg r = BitVec.ofNat 64 v &&& r.writableBits := by
  cases r with
  | cmd => exact absurd rfl hr
  | status => exact absurd rfl hr
  | flen => exact absurd rfl hr
  | cfgSampleRate => exact zeroExtend_ofNat_eq_and 32 v
  | cfgBitRate => exact zeroExtend_ofNat_eq_and 32 v
  | cfgMark => exact zeroExtend_ofNat_eq_and 32 v
  | cfgSpace => exact zeroExtend_ofNat_eq_and 32 v
  | b91Value => exact zeroExtend_ofNat_eq_and 32 v
  | cfgPreamble => exact zeroExtend_ofNat_eq_and 16 v
  | cfgRest => exact zeroExtend_ofNat_eq_and 16 v
  | cfgAmpl => exact zeroExtend_ofNat_eq_and 16 v
  | plen => exact zeroExtend_ofNat_eq_and 16 v
  | npath => exact zeroExtend_ofNat_eq_and 2 v
  | b91Width => exact zeroExtend_ofNat_eq_and 4 v
  | addrDst => exact AddrReg.toWord_withoutH_ofWord _
  | addrSrc => exact AddrReg.toWord_withoutH_ofWord _
  | addrPath1 => exact AddrReg.toWord_ofWord _
  | addrPath2 => exact AddrReg.toWord_ofWord _

/-- A read-only register ignores the write (R46). -/
theorem State.readReg_writeReg_readOnly (s : State) {r : Reg} (v : Nat) (hr : r = .status ∨ r = .flen) :
    (s.writeReg r v).readReg r = s.readReg r := by
  rcases hr with rfl | rfl <;> rfl

/-- A write leaves every other register alone. -/
theorem State.readReg_writeReg_other (s : State) {r r' : Reg} (v : Nat) (h : r' ≠ r) :
    (s.writeReg r v).readReg r' = s.readReg r' := by
  cases r <;> cases r' <;> trivial

section
variable (s : State) (r : Reg) (v : Nat)

@[simp] theorem State.writeReg_seq : (s.writeReg r v).seq = s.seq := by cases r <;> rfl
@[simp] theorem State.writeReg_phase : (s.writeReg r v).phase = s.phase := by cases r <;> rfl
@[simp] theorem State.writeReg_level : (s.writeReg r v).level = s.level := by cases r <;> rfl
@[simp] theorem State.writeReg_epoch : (s.writeReg r v).epoch = s.epoch := by cases r <;> rfl
@[simp] theorem State.writeReg_buf (sp : BufSpace) : (s.writeReg r v).buf sp = s.buf sp := by cases r <;> rfl

end

theorem sameModulator_writeReg (s : State) (r : Reg) (v : Nat) : SameModulator s (s.writeReg r v) :=
  ⟨s.writeReg_phase r v, s.writeReg_level r v⟩

theorem sameBuf_writeReg (s : State) (r : Reg) (v : Nat) (sp : BufSpace) : SameBuf s (s.writeReg r v) sp :=
  fun _ => State.octet_congr (s.writeReg_epoch r v) (by rw [State.writeReg_buf])

theorem sameRegs_writeReg (s : State) (r : Reg) (v : Nat) : SameRegs s (s.writeReg r v) [r] :=
  fun _ hr' => s.readReg_writeReg_other v (List.ne_of_not_mem_cons hr')

/-- A register write while idle, as a step (R19, R44). -/
theorem step_of_regWrite_idle {s : State} {n v : Nat} {rest : List Event} {r : Reg} (hb : s.busy = false)
    (hi : s.inbox = .regWrite n v :: rest) (hr : regOfNumber n = some r) (hcmd : r ≠ .cmd) :
    step s = .next (State.writeReg { s with inbox := rest } r v) := by
  have hn : regOfNumber n ≠ some .cmd := by rw [hr]; exact fun h => hcmd (Option.some.inj h)
  rw [step_of_event hi (opcodeWritten_of_ne_cmd n v hn), takeEvent_regWrite_idle { s with inbox := rest } n v hb hr]

/-- An unlisted number ignores the write (R19). -/
theorem step_of_regWrite_unlisted {s : State} {n v : Nat} {rest : List Event} (hb : s.busy = false)
    (hi : s.inbox = .regWrite n v :: rest) (hr : regOfNumber n = none) : step s = .next { s with inbox := rest } := by
  rw [step_of_event hi (opcodeWritten_of_ne_cmd n v (by simp [hr])), takeEvent_regWrite_none { s with inbox := rest } n v hb hr]

theorem State.readNumber_of_unlisted (s : State) {n : Nat} (hr : regOfNumber n = none) : s.readNumber n = 0 := by
  simp [State.readNumber, hr]

/-- Bits 63:57 of an address register are reserved (R11, R19). -/
theorem AddrReg.toWord_reserved (a : AddrReg) : a.toWord.extractLsb' 57 7 = 0 := by
  apply BitVec.eq_of_getLsbD_eq
  intro i hi
  simp only [AddrReg.toWord, BitVec.getLsbD_extractLsb', BitVec.getLsbD_append, BitVec.getLsbD_zero]
  interval_cases i <;> simp

theorem State.readReg_addr_reserved (s : State) {r : Reg}
    (hr : r = .addrDst ∨ r = .addrSrc ∨ r = .addrPath1 ∨ r = .addrPath2) : (s.readReg r).extractLsb' 57 7 = 0 := by
  rcases hr with rfl | rfl | rfl | rfl <;> exact AddrReg.toWord_reserved _

/-- Settles O12: a write while idle is `writeReg`, which stores the writable bits of its register and leaves the rest. -/
theorem hostWritesKeepTheWritableBits : Obligations.HostWritesKeepTheWritableBits := by
  refine ⟨fun s n v rest r hb hi hr hcmd => ?_, fun s n v rest hb hi hr => step_of_regWrite_unlisted hb hi hr,
    fun s n rest hi hr => ?_, fun s v rest hi => ?_,
    fun s => ⟨s.readReg_status_reserved_low, s.readReg_status_reserved_high, fun r => s.readReg_addr_reserved⟩⟩
  · set u : State := { s with inbox := rest }
    refine ⟨_, step_of_regWrite_idle hb hi hr hcmd, u.readReg_writeReg_readOnly v, ?_, ?_, ?_, ?_, ?_, ?_,
      sameRegs_writeReg u r v, sameBuf_writeReg u r v, sameModulator_writeReg u r v, u.writeReg_seq r v⟩
    · rintro (rfl | rfl | rfl | rfl | rfl) <;> exact u.readReg_writeReg_same v (by decide)
    · rintro (rfl | rfl | rfl | rfl) <;> exact u.readReg_writeReg_same v (by decide)
    · rintro rfl; exact u.readReg_writeReg_same v (by decide)
    · rintro rfl; exact u.readReg_writeReg_same v (by decide)
    · rintro (rfl | rfl) <;> exact u.readReg_writeReg_same v (by decide)
    · rintro (rfl | rfl) <;> exact u.readReg_writeReg_same v (by decide)
  · rw [step_of_event hi rfl]
    simp only [takeEvent, State.logRead, State.readNumber_of_unlisted _ hr]
  · have htrunc : BitVec.ofNat 8 (v % 256) = BitVec.ofNat 8 v := BitVec.eq_of_toNat_eq (by simp)
    rw [step_of_command hi, htrunc]

/-! ## What the frame reads (R100 to R105) -/

/-- An address group reads the characters below `CLEN`, the SSID, and `H` in the path only. -/
theorem addrOctets_congr {a b : AddrReg} {isPath : Bool} (hclen : a.clen = b.clen) (hssid : a.ssid = b.ssid)
    (hchar : ∀ i, i < a.clen.toNat → a.char i = b.char i) (hh : isPath = true → a.h = b.h) (l : BitVec 1) :
    addrOctets a isPath l = addrOctets b isPath l := by
  have hchars : ∀ i, (if i < a.clen.toNat then a.char i else 0x20) = if i < b.clen.toNat then b.char i else 0x20 :=
    fun i => by rw [← hclen]; exact ite_congr rfl (hchar i) fun _ => rfl
  have hbit : (if isPath then a.h else 0) = if isPath then b.h else 0 := ite_congr rfl hh fun _ => rfl
  simp only [addrOctets, hchars, hbit, hssid]

/-- The frame is a function of its address field and its payload. -/
theorem frame_congr {s t : State} (haddr : addressField t = addressField s) (hplen : t.plen = s.plen)
    (hpay : ∀ i, i < s.plen.toNat → t.octet .pbuf i = s.octet .pbuf i) : frame t = frame s := by
  have hbody : body t = body s := by rw [body, body, header, header, haddr, hplen, State.octets_congr hpay]
  rw [frame, frame, hbody]

/-- Settles O27: an entry of the address field that is used agrees, one that is not used is not read. -/
theorem theFrameReadsOnlyItsOperands : Obligations.TheFrameReadsOnlyItsOperands := by
  intro s t sameCall hnpath hplen hdst hsrc hpath1 hpath2 hpay
  have haddr {a b : AddrReg} {isPath : Bool} (h : sameCall a b) (hh : isPath = true → a.h = b.h) (l : BitVec 1) :
      addrOctets b isPath l = addrOctets a isPath l := by
    obtain ⟨hclen, hssid, hchar⟩ := h
    exact (addrOctets_congr hclen hssid hchar hh l).symm
  refine frame_congr ?_ hplen hpay
  simp only [addressField, hnpath]
  refine congrArg₂ _ (congrArg₂ _ (congrArg₂ _ ?dst ?src) ?path1) ?path2
  case dst => exact haddr hdst (by simp) 0
  case src => exact haddr hsrc (by simp) _
  case path1 => exact ite_congr rfl (fun h => haddr (hpath1 h).1 (fun _ => (hpath1 h).2) _) fun _ => rfl
  case path2 => exact ite_congr rfl (fun h => haddr (hpath2 h).1 (fun _ => (hpath2 h).2) 1) fun _ => rfl

/-! ## The idle block (R12, R214) -/

/-- Settles O53: a turn of an idle block takes the event off and no step. -/
theorem anIdleBlockStaysAsItIs : Obligations.AnIdleBlockStaysAsItIs := by
  intro s s' hturn hs
  obtain ⟨hstep, rest, rfl⟩ := step_of_turn hturn
  rw [hstep, blockStep_idle (s := { s with inbox := rest }) hs]

/-! ## What moves the modulator state (R24, R25) -/

theorem SameModulator.refl (s : State) : SameModulator s s := ⟨rfl, rfl⟩

theorem sameModulator_flush (s : State) (f : InFlight) : SameModulator s (flush s f) := by
  rcases flush_cases s f with ⟨-, h⟩ | ⟨_, -, h⟩ | ⟨_, -, h⟩ <;> rw [h] <;> exact ⟨rfl, rfl⟩

/-- Assembly writes `FBUF` and `FLEN` and no other field, whatever the frame (R108). -/
theorem assemble_writes (s : State) : ∃ m n, assemble s = { s with fbuf := m, flen := n } := ⟨_, _, assemble_eq s⟩

theorem sameModulator_buildCommand (s : State) : SameModulator s (buildCommand s) := by
  obtain ⟨m, n, heq⟩ := assemble_writes s
  rcases buildCommand_cases s with ⟨_, _, -, h⟩ | ⟨-, h⟩ <;> rw [h]
  · exact ⟨rfl, rfl⟩
  · rw [heq]
    exact ⟨rfl, rfl⟩

theorem sameModulator_transmitCommand (s : State) : SameModulator s (transmitCommand s) := by
  obtain ⟨m, n, heq⟩ := assemble_writes s
  rcases transmitCommand_cases s with ⟨_, _, -, h⟩ | ⟨_, _, -, -, h⟩ | ⟨-, -, h⟩ <;> rw [h]
  · exact ⟨rfl, rfl⟩
  · exact ⟨rfl, rfl⟩
  · rw [heq]
    exact ⟨rfl, rfl⟩

/-- `phase` and `level` hold their initial values (R24, R143). -/
def ModulatorInitial (t : State) : Prop := t.phase = 0 ∧ t.level = true

/-- MODRST, opcode 0x04, is the one command that moves the modulator state (R171). -/
theorem commandOf_modulator (op : Byte) (s : State) :
    SameModulator s (commandOf op s) ∨ (op = 0x04 ∧ ModulatorInitial (commandOf op s)) := by
  rcases commandOf_cases op with ⟨-, h⟩ | ⟨-, h⟩ | ⟨-, h⟩ | ⟨hop, h⟩ | ⟨-, -, -, -, h⟩ <;> rw [h]
  · exact .inl ⟨rfl, rfl⟩
  · exact .inl (sameModulator_buildCommand s)
  · exact .inl (sameModulator_transmitCommand s)
  · exact .inr ⟨hop, rfl, rfl⟩
  · exact .inl ⟨rfl, rfl⟩

/-- The steps of a transmission that move the modulator state: a sample step and a symbol start. -/
theorem blockStep_modulator (s : State) :
    SameModulator s (blockStep s) ∨ (∃ f, s.seq = .stream f ∧ 0 < f.j ∧ blockStep s = sampleStep s f) ∨
    ∃ f b, s.seq = .stream f ∧ f.j = 0 ∧ f.T[f.k]? = some b ∧ blockStep s = symbolStart s f b := by
  rcases hs : s.seq with _ | f
  · rw [blockStep_idle hs]
    exact .inl (.refl s)
  · rcases blockStep_cases hs with ⟨-, h⟩ | ⟨-, hj, h⟩ | ⟨-, hj, b, hT, h⟩ | ⟨-, -, -, -, h⟩ | ⟨-, -, -, h⟩ <;> rw [h]
    · exact .inl (sameModulator_flush s f)
    · exact .inr (.inl ⟨f, rfl, hj, rfl⟩)
    · exact .inr (.inr ⟨f, b, rfl, hj, hT, rfl⟩)
    · exact .inl (sameModulator_flush s f)
    · exact .inl ⟨rfl, rfl⟩

theorem sameModulator_hostRegWrite (s : State) (n v : Nat) : SameModulator s (hostRegWrite s n v) := by
  unfold hostRegWrite
  split
  · exact ⟨rfl, rfl⟩
  · split
    · exact sameModulator_writeReg s _ v
    · exact .refl s

theorem sameModulator_hostPbufWrite (s : State) (i : Nat) (b : Byte) : SameModulator s (hostPbufWrite s i b) := by
  unfold hostPbufWrite State.writePbuf
  split_ifs <;> exact ⟨rfl, rfl⟩

/-- Among the events only a reset and a turn of the block can move the modulator state. -/
theorem takeEvent_modulator (e : Event) (s : State) :
    SameModulator s (takeEvent e s) ∨ (e = .reset ∧ ModulatorInitial (takeEvent e s)) ∨ e = .blockTurn := by
  cases e with
  | regWrite n v => exact .inl (sameModulator_hostRegWrite s n v)
  | regRead n => exact .inl ⟨rfl, rfl⟩
  | pbufWrite i b => exact .inl (sameModulator_hostPbufWrite s i b)
  | bufRead space i => exact .inl ⟨rfl, rfl⟩
  | reset => exact .inr (.inl ⟨rfl, rfl, rfl⟩)
  | blockTurn => exact .inr (.inr rfl)

/-- A reset event is next, or a MODRST that finds the block idle. -/
def ModulatorResetNext (s : State) : Prop :=
  (∃ rest, s.inbox = .reset :: rest) ∨ (s.busy = false ∧ CommandNext s 0x04)

/-- A write of `CMD` moves the modulator state only if it is a MODRST that finds the block idle. -/
theorem issue_modulator (s : State) (op : Byte) :
    SameModulator s (s.issue (commandOf op)) ∨
    (s.busy = false ∧ op = 0x04 ∧ ModulatorInitial (s.issue (commandOf op))) := by
  cases hb : s.busy
  · rw [State.issue_idle _ _ hb]
    rcases commandOf_modulator op s.clearCommandStatus with h | ⟨hop, h⟩
    · exact .inl h
    · exact .inr ⟨rfl, hop, h⟩
  · rw [State.issue_busy _ _ hb]
    exact .inl ⟨rfl, rfl⟩

/-- What a step can do to the modulator state, said once: nothing, a turn of the block, or the initial values. -/
theorem step_modulator {s t : State} (h : step s = .next t) :
    SameModulator s t ∨ (∃ s', BlocksTurn s s' ∧ t = blockStep s') ∨ (ModulatorInitial t ∧ ModulatorResetNext s) := by
  rcases step_cases h with ⟨hi, rfl⟩ | ⟨v, rest, hi, rfl⟩ | ⟨e, rest, hi, -, rfl⟩
  · exact .inr (.inl ⟨s, .inl ⟨hi, rfl⟩, rfl⟩)
  · rcases issue_modulator { s with inbox := rest } (BitVec.ofNat 8 v) with h | ⟨hb, hop, h⟩
    · exact .inl h
    · exact .inr (.inr ⟨h, .inr ⟨hb, v, rest, hi, hop⟩⟩)
  · rcases takeEvent_modulator e { s with inbox := rest } with h | ⟨rfl, h⟩ | rfl
    · exact .inl h
    · exact .inr (.inr ⟨h, .inl ⟨rest, hi⟩⟩)
    · exact .inr (.inl ⟨_, .inr ⟨rest, hi, rfl⟩, rfl⟩)

/-- Settles O54: of the block's own steps the sample step alone moves `phase`. -/
theorem onlySamplesModrstAndResetMoveThePhase : Obligations.OnlySamplesModrstAndResetMoveThePhase := by
  intro s t h
  rcases step_modulator h with hsame | ⟨s', hturn, rfl⟩ | ⟨hinit, hnext⟩
  · exact .inl hsame.1
  · obtain ⟨-, rest, rfl⟩ := step_of_turn hturn
    rcases blockStep_modulator { s with inbox := rest } with hsame | ⟨f, hs, hj, hb⟩ | ⟨f, b, -, -, -, hb⟩
    · exact .inl hsame.1
    · rw [hb]
      exact .inr (.inl ⟨_, f, hturn, hs, hj, phaseAdvance_eq _ _ _⟩)
    · rw [hb]
      exact .inl rfl
  · exact .inr (.inr ⟨hinit.1, hnext⟩)

/-- Settles O55: of the block's own steps the symbol start alone moves `level`, and only on a 0 bit. -/
theorem onlyZeroBitsModrstAndResetMoveTheLevel : Obligations.OnlyZeroBitsModrstAndResetMoveTheLevel := by
  intro s t h
  rcases step_modulator h with hsame | ⟨s', hturn, rfl⟩ | ⟨hinit, hnext⟩
  · exact .inl hsame.2
  · obtain ⟨-, rest, rfl⟩ := step_of_turn hturn
    rcases blockStep_modulator { s with inbox := rest } with hsame | ⟨f, -, -, hb⟩ | ⟨f, b, hs, hj, hT, hb⟩
    · exact .inl hsame.2
    · rw [hb]
      exact .inl rfl
    · rw [hb]
      cases b with
      | true => exact .inl rfl
      | false => exact .inr (.inl ⟨_, f, hturn, hs, hj, hT, rfl⟩)
  · exact .inr (.inr ⟨hinit.2, hnext⟩)

end Sys2Proof.Machine
end

section
/-! SUPPORT. The statements about host accesses: the register map, the bounds of the buffers, reads, repeated writes, and
what stays as it is while the block is busy. -/

namespace Sys2Proof.Machine

/-! ## The register map (R46) -/

/-- The table of R46. -/
def registerMap : List (Nat × Reg) :=
  [(0x00, .cmd), (0x01, .status), (0x02, .cfgSampleRate), (0x03, .cfgBitRate), (0x04, .cfgMark), (0x05, .cfgSpace),
   (0x06, .cfgPreamble), (0x07, .cfgRest), (0x08, .cfgAmpl), (0x10, .addrDst), (0x11, .addrSrc), (0x12, .addrPath1),
   (0x13, .addrPath2), (0x14, .npath), (0x15, .plen), (0x16, .flen), (0x18, .b91Value), (0x19, .b91Width)]

theorem regOfNumber_of_mem_registerMap : ∀ p ∈ registerMap, regOfNumber p.1 = some p.2 := by decide

theorem mem_registerMap_of_regOfNumber {n : Nat} {r : Reg} (h : regOfNumber n = some r) : (n, r) ∈ registerMap := by
  unfold regOfNumber at h
  split at h <;> cases h <;> decide

theorem regOfNumber_eq_some_iff (n : Nat) (r : Reg) : regOfNumber n = some r ↔ (n, r) ∈ registerMap :=
  ⟨mem_registerMap_of_regOfNumber, regOfNumber_of_mem_registerMap (n, r)⟩

/-! ### The fields of an address register (R11) -/

section
variable (a : AddrReg)

theorem AddrReg.toWord_char {i : Nat} (hi : i < 6) : a.toWord.extractLsb' (8 * i) 8 = a.char i :=
  BitVec.extractLsb'_append_eq_of_add_le (by omega)

theorem AddrReg.toWord_clen : a.toWord.extractLsb' 48 4 = a.clen :=
  (BitVec.extractLsb'_append_eq_of_le (by omega)).trans BitVec.extractLsb'_append_eq_right

theorem AddrReg.toWord_ssid : a.toWord.extractLsb' 52 4 = a.ssid :=
  (BitVec.extractLsb'_append_eq_of_le (by omega)).trans <|
    (BitVec.extractLsb'_append_eq_of_le (by omega)).trans BitVec.extractLsb'_append_eq_right

theorem AddrReg.toWord_h : a.toWord.extractLsb' 56 1 = a.h :=
  (BitVec.extractLsb'_append_eq_of_le (by omega)).trans <|
    (BitVec.extractLsb'_append_eq_of_le (by omega)).trans <|
      (BitVec.extractLsb'_append_eq_of_le (by omega)).trans BitVec.extractLsb'_append_eq_right

theorem AddrReg.toWord_fields :
    (∀ i, i < 6 → a.toWord.extractLsb' (8 * i) 8 = a.char i) ∧ a.toWord.extractLsb' 48 4 = a.clen ∧
      a.toWord.extractLsb' 52 4 = a.ssid ∧ a.toWord.extractLsb' 56 1 = a.h :=
  ⟨fun _ => a.toWord_char, a.toWord_clen, a.toWord_ssid, a.toWord_h⟩

end

/-- Settles O11: the numbers are those of `registerMap`, a read is zero-extended, and an address register reads as its
word; `ADDR_DST` and `ADDR_SRC` as the word without `H`. -/
theorem registerNumbersAreTheMap : Obligations.RegisterNumbersAreTheMap := by
  have h32 {x : BitVec 32} : (x.zeroExtend 64).toNat = x.toNat := BitVec.toNat_setWidth_of_le (by decide)
  have h16 {x : BitVec 16} : (x.zeroExtend 64).toNat = x.toNat := BitVec.toNat_setWidth_of_le (by decide)
  refine ⟨regOfNumber_eq_some_iff, fun s => ⟨rfl, h32, h32, h32, h32, h16, h16, h16,
    BitVec.toNat_setWidth_of_le (by decide), h16, h16, h32, BitVec.toNat_setWidth_of_le (by decide), fun r a hra => ?_⟩⟩
  simp only [List.mem_cons, Prod.mk.injEq, List.not_mem_nil, or_false] at hra
  rcases hra with ⟨rfl, rfl⟩ | ⟨rfl, rfl⟩ | ⟨rfl, rfl⟩ | ⟨rfl, rfl⟩
  · exact s.addrDst.withoutH.toWord_fields
  · exact s.addrSrc.withoutH.toWord_fields
  · exact s.addrPath1.toWord_fields
  · exact s.addrPath2.toWord_fields

/-! ## Buffer accesses (R40, R41, R43) -/

/-- A write of `PBUF` while idle, as a step. -/
theorem step_of_pbufWrite_idle {s : State} {i : Nat} {b : Byte} {rest : List Event} (hb : s.busy = false)
    (hi : s.inbox = .pbufWrite i b :: rest) : step s = .next (State.writePbuf { s with inbox := rest } i b) := by
  rw [step_of_event hi rfl, takeEvent_pbufWrite_idle { s with inbox := rest } i b hb]

/-- An octet written inside `PBUF` is read back. -/
theorem State.octet_pbuf_write_same (s : State) {i : Nat} (b : Byte) (hi : i < 256) :
    State.octet { s with pbuf := s.pbuf.write i b } .pbuf i = b :=
  State.octet_eq_of_read _ hi (Memory.read_write_same s.pbuf i b)

/-- A write of `PBUF` leaves its other octets. -/
theorem State.octet_pbuf_write_other (s : State) {i j : Nat} (b : Byte) (hij : i ≠ j) :
    State.octet { s with pbuf := s.pbuf.write i b } .pbuf j = s.octet .pbuf j :=
  State.octet_congr rfl (Memory.read_write_other s.pbuf b hij)

/-- No register is kept in `PBUF`. -/
theorem sameRegs_pbuf (s : State) (m : Memory) : SameRegs s { s with pbuf := m } [] :=
  fun r _ => by cases r <;> rfl

/-- Settles O13: a payload write while idle is `writePbuf`, ignored from index 256 on and one octet's write below it. -/
theorem bufferAccessesStayInBounds : Obligations.BufferAccessesStayInBounds := by
  refine ⟨fun s i => ⟨s.octet_out_of_range (space := .pbuf), s.octet_out_of_range (space := .fbuf),
    s.octet_out_of_range (space := .b91out)⟩,
    fun s i b rest hb hi hout => ?_, fun s i b rest hb hi hin => ?_⟩
  · rw [step_of_pbufWrite_idle hb hi, State.writePbuf_of_le _ b hout]
  · rw [step_of_pbufWrite_idle hb hi, State.writePbuf_of_lt _ b hin]
    exact ⟨_, rfl, State.octet_pbuf_write_same { s with inbox := rest } b hin,
      fun j hj => State.octet_pbuf_write_other { s with inbox := rest } b hj.symm, fun _ => rfl, fun _ => rfl,
      sameRegs_pbuf { s with inbox := rest } _, .refl s, rfl⟩

/-! ## Reads and repeated writes (R45) -/

theorem State.readNumber_of_listed (s : State) {n : Nat} {r : Reg} (hr : regOfNumber n = some r) :
    s.readNumber n = s.readReg r := by
  simp [State.readNumber, hr]

/-- A register read, busy or idle, as a step: it is recorded (log 10). -/
theorem step_of_regRead {s : State} {n : Nat} {rest : List Event} (hi : s.inbox = .regRead n :: rest) :
    step s = .next { s with inbox := rest, reads := s.reads ++ [s.readNumber n] } := by
  have hread : State.readNumber { s with inbox := rest } n = s.readNumber n := by
    rcases hr : regOfNumber n with _ | r
    · rw [State.readNumber_of_unlisted _ hr, State.readNumber_of_unlisted _ hr]
    · rw [State.readNumber_of_listed _ hr, State.readNumber_of_listed _ hr]
      cases r <;> rfl
  rw [step_of_event hi rfl, takeEvent, State.logRead, hread]

/-- A buffer read, busy or idle, as a step: it is recorded (log 10). -/
theorem step_of_bufRead {s : State} {sp : BufSpace} {i : Nat} {rest : List Event} (hi : s.inbox = .bufRead sp i :: rest) :
    step s = .next { s with inbox := rest, reads := s.reads ++ [(s.octet sp i).zeroExtend 64] } := by
  have hread : State.octet { s with inbox := rest } sp i = s.octet sp i := by cases sp <;> rfl
  rw [step_of_event hi rfl, takeEvent, State.logRead, hread]

theorem State.writeReg_busy (s : State) (r : Reg) (v : Nat) : (s.writeReg r v).busy = s.busy := by cases r <;> rfl
theorem State.writeReg_inbox (s : State) (r : Reg) (v : Nat) : (s.writeReg r v).inbox = s.inbox := by cases r <;> rfl

/-- What a register stores does not depend on what it held. -/
theorem State.writeReg_again (s : State) (r : Reg) (v : Nat) (rest : List Event) :
    State.writeReg { s.writeReg r v with inbox := rest } r v = { s.writeReg r v with inbox := rest } := by
  cases r <;> rfl

/-- A write of any register while busy, `CMD` among them, as a step (R48). -/
theorem step_of_regWrite_busy {s : State} {n v : Nat} {rest : List Event} (hb : s.busy = true)
    (hi : s.inbox = .regWrite n v :: rest) : step s = .next { s with inbox := rest, overrun := true } := by
  by_cases hcmd : n = 0
  · subst hcmd
    rw [step_of_command hi, exec_eq, State.issue_busy { s with inbox := rest } _ hb, State.markOverrun]
  · rw [step_of_event hi (opcodeWritten_of_ne_cmd n v (mt (regOfNumber_eq_cmd_iff n).1 hcmd)),
      takeEvent_regWrite_busy { s with inbox := rest } n v hb, State.markOverrun]

/-- A write of `PBUF` while busy, as a step (R48). -/
theorem step_of_pbufWrite_busy {s : State} {i : Nat} {b : Byte} {rest : List Event} (hb : s.busy = true)
    (hi : s.inbox = .pbufWrite i b :: rest) : step s = .next { s with inbox := rest, overrun := true } := by
  rw [step_of_event hi rfl, takeEvent_pbufWrite_busy { s with inbox := rest } i b hb, State.markOverrun]

/-- The second of two like register writes takes its event off and no more: an unlisted number is ignored, a register
stores the same again, and while busy `OVERRUN` is set already. -/
theorem step_of_regWrite_again {s t : State} {n v : Nat} {rest : List Event} (hcmd : regOfNumber n ≠ some .cmd)
    (hi : s.inbox = .regWrite n v :: .regWrite n v :: rest) (h : step s = .next t) :
    step t = .next { t with inbox := rest } := by
  cases hb : s.busy
  · rcases hr : regOfNumber n with _ | r
    · obtain rfl := Host.Outcome.next.inj (h.symm.trans (step_of_regWrite_unlisted hb hi hr))
      exact step_of_regWrite_unlisted hb rfl hr
    · have hne : r ≠ .cmd := fun hrc => hcmd (hrc ▸ hr)
      obtain rfl := Host.Outcome.next.inj (h.symm.trans (step_of_regWrite_idle hb hi hr hne))
      set u : State := { s with inbox := .regWrite n v :: rest }
      rw [step_of_regWrite_idle ((u.writeReg_busy r v).trans hb) (u.writeReg_inbox r v) hr hne, u.writeReg_again]
  · obtain rfl := Host.Outcome.next.inj (h.symm.trans (step_of_regWrite_busy hb hi))
    exact step_of_regWrite_busy hb rfl

/-- Settles O14: a read is recorded and no more; the second of two like writes takes its event off and no more. -/
theorem readsChangeNothingAndWritesAreIdempotent : Obligations.ReadsChangeNothingAndWritesAreIdempotent :=
  ⟨fun s _ _ => s.readNumber_of_listed, fun _ _ _ => step_of_regRead, fun _ _ _ _ => step_of_bufRead,
    fun _ _ _ _ _ _ hcmd hi ht hu => Host.Outcome.next.inj (hu.symm.trans (step_of_regWrite_again hcmd hi ht))⟩

/-! ## The inputs of a transmission (R48) -/

/-- The state with what a running transmission, a read or a dropped write may change blanked out. Every register but
`STATUS` is left, and every buffer. -/
def State.inputs (s : State) : State :=
  { s with
    seq := .idle
    done := false
    err := .none
    einfo := 0
    overrun := false
    phase := 0
    level := true
    inbox := []
    sinkAnswers := []
    sinkLog := []
    reads := [] }

theorem State.readReg_inputs (s : State) {r : Reg} (hr : r ≠ .status) : s.inputs.readReg r = s.readReg r := by
  cases r with
  | status => exact absurd rfl hr
  | _ => rfl

theorem State.octet_inputs (s : State) (sp : BufSpace) (i : Nat) : s.inputs.octet sp i = s.octet sp i := by
  cases sp <;> rfl

theorem sameRegs_of_inputs_eq {s t : State} (h : t.inputs = s.inputs) : SameRegs s t [.status] := by
  intro r hr
  have hr' : r ≠ .status := List.ne_of_not_mem_cons hr
  rw [← t.readReg_inputs hr', h, s.readReg_inputs hr']

theorem sameBuf_of_inputs_eq {s t : State} (h : t.inputs = s.inputs) (sp : BufSpace) : SameBuf s t sp :=
  fun i => by rw [← t.octet_inputs, h, s.octet_inputs]

theorem flush_inputs (s : State) (f : InFlight) : (flush s f).inputs = s.inputs := by
  rcases flush_cases s f with ⟨-, h⟩ | ⟨_, -, h⟩ | ⟨_, -, h⟩ <;> rw [h] <;> rfl

theorem blockStep_inputs (s : State) : (blockStep s).inputs = s.inputs := by
  rcases hs : s.seq with _ | f
  · rw [blockStep_idle hs]
  · rcases blockStep_cases hs with ⟨-, h⟩ | ⟨-, -, h⟩ | ⟨-, -, _, -, h⟩ | ⟨-, -, -, -, h⟩ | ⟨-, -, -, h⟩ <;> rw [h]
    · exact flush_inputs s f
    · rfl
    · rfl
    · exact flush_inputs s f
    · rfl

/-- While busy every event but a reset leaves the inputs. -/
theorem takeEvent_inputs_of_busy {s : State} {e : Event} (hb : s.busy = true) (he : e ≠ .reset) :
    (takeEvent e s).inputs = s.inputs := by
  cases e with
  | regWrite n v => rw [takeEvent_regWrite_busy s n v hb]; rfl
  | regRead n => rfl
  | pbufWrite i b => rw [takeEvent_pbufWrite_busy s i b hb]; rfl
  | bufRead sp i => rfl
  | reset => exact absurd rfl he
  | blockTurn => exact blockStep_inputs s

/-- A step that finds the block busy and leaves it busy is no reset, and leaves the inputs. -/
theorem step_inputs_of_busy {s t : State} (hb : s.busy = true) (h : step s = .next t) (hbt : t.busy = true) :
    t.inputs = s.inputs := by
  rcases step_cases h with ⟨-, rfl⟩ | ⟨v, rest, -, rfl⟩ | ⟨e, rest, -, -, rfl⟩
  · exact blockStep_inputs s
  · rw [State.issue_busy { s with inbox := rest } _ hb]
    rfl
  · have he : e ≠ .reset := by
      rintro rfl
      cases hbt
    exact takeEvent_inputs_of_busy (s := { s with inbox := rest }) hb he

/-- Settles O15: a write is dropped and recorded, a read is as at any time, and no step that stays busy moves an input. -/
theorem whileBusyTheInputsBelongToTheTransmission : Obligations.WhileBusyTheInputsBelongToTheTransmission := by
  refine ⟨fun s n v rest r hb _ => step_of_regWrite_busy hb, fun s i b rest hb _ => step_of_pbufWrite_busy hb,
    fun s n rest _ hi => ⟨step_of_regRead hi, fun r => s.readNumber_of_listed⟩, fun s sp i rest _ => step_of_bufRead,
    fun s t hb h hbt => ?_⟩
  have hin := step_inputs_of_busy hb h hbt
  exact ⟨sameRegs_of_inputs_eq hin, sameBuf_of_inputs_eq hin .pbuf, sameBuf_of_inputs_eq hin .fbuf⟩

end Sys2Proof.Machine
end

section
/-! SUPPORT. The statements about the decoder and the encoder (30_encoding.md), and what runs a decoded word. -/

namespace Sys2Proof.Machine

/-! ## The round trip from a row (R60 to R72) -/

/-- Settles O2: row by row, by the round trip of each constructor. -/
theorem decodeOfEncodeIsTheInstruction : Obligations.DecodeOfEncodeIsTheInstruction := by
  intro i
  cases i with
  | b91enc => exact Laws.RoundTrip.b91enc
  | build => exact Laws.RoundTrip.build
  | transmit => exact Laws.RoundTrip.transmit
  | modrst => exact Laws.RoundTrip.modrst
  | illegal op => exact Laws.RoundTrip.illegal op
  | dataCallsignOctet c => exact Laws.RoundTrip.dataCallsignOctet c
  | dataSsidOctet h ssid l => exact Laws.RoundTrip.dataSsidOctet h ssid l
  | dataCtrlUi => exact Laws.RoundTrip.dataCtrlUi
  | dataPidNol3 => exact Laws.RoundTrip.dataPidNol3
  | dataFlag => exact Laws.RoundTrip.dataFlag
  | dataB91Char d => exact Laws.RoundTrip.dataB91Char d

/-! ## The value of a pattern with fields (R64, R65, R72) -/

/-- Concatenation as arithmetic. -/
theorem toNat_append_eq_add {m n : Nat} (x : BitVec m) (y : BitVec n) :
    (x ++ y).toNat = x.toNat * 2 ^ n + y.toNat := by
  rw [BitVec.toNat_append, ← Nat.shiftLeft_add_eq_or_of_lt y.isLt, Nat.shiftLeft_eq]

theorem toNat_encodeOctet_callsign (c : BitVec 7) : (encodeOctet (.dataCallsignOctet c)).toNat = c.toNat * 2 :=
  toNat_append_eq_add c 0#1

theorem toNat_encodeOctet_ssid (h : BitVec 1) (ssid : BitVec 4) (l : BitVec 1) :
    (encodeOctet (.dataSsidOctet h ssid l)).toNat = h.toNat * 128 + 96 + ssid.toNat * 2 + l.toNat := by
  simp only [encodeOctet, toNat_append_eq_add, BitVec.toNat_ofNat]
  omega

theorem toNat_encodeOctet_b91Char (d : BitVec 7) : (encodeOctet (.dataB91Char d)).toNat = d.toNat := by
  simp only [encodeOctet, toNat_append_eq_add, BitVec.toNat_ofNat]
  omega

/-! ## The round trip from an octet -/

/-- The row `i` is a well-formed reading of the octet `b` at the place `p`. -/
def ReadsBack (p : OctetPlace) (b : Byte) (i : Instr) : Prop := i.wf = true ∧ placeOf i = p ∧ encodeOctet i = b

/-- Every opcode is a command's or an illegal one (R61, R62). -/
theorem readsBack_decodeCommand (op : Byte) : ReadsBack .command op (decodeCommand op) := by
  rcases decodeCommand_cases op with ⟨rfl, hd⟩ | ⟨rfl, hd⟩ | ⟨rfl, hd⟩ | ⟨rfl, hd⟩ | ⟨h1, h2, h3, h4, hd⟩ <;> rw [hd]
  · exact ⟨rfl, rfl, rfl⟩
  · exact ⟨rfl, rfl, rfl⟩
  · exact ⟨rfl, rfl, rfl⟩
  · exact ⟨rfl, rfl, rfl⟩
  · have hill : op = 0x00 ∨ 0x05 ≤ op := by bv_omega
    exact ⟨decide_eq_true hill, rfl, rfl⟩

/-- `CCCCCCC0` (R64): the two fields are the whole octet. -/
theorem readsBack_callsign {b : Byte} (h : b.extractLsb' 0 1 = 0) :
    ReadsBack .callsign b (.dataCallsignOctet (b.extractLsb' 1 7)) := by
  refine ⟨rfl, rfl, ?_⟩
  calc b.extractLsb' 1 7 ++ 0#1
      = b.extractLsb' 1 7 ++ b.extractLsb' 0 1 := by rw [h]; rfl
    _ = b := by rw [BitVec.extractLsb'_append_extractLsb'_eq_extractLsb' (by omega)]; simp

/-- `H11SSSSL` (R65): the four fields are the whole octet. -/
theorem readsBack_ssid {b : Byte} (h : b.extractLsb' 5 2 = 3) :
    ReadsBack .ssid b (.dataSsidOctet (b.extractLsb' 7 1) (b.extractLsb' 1 4) (b.extractLsb' 0 1)) := by
  refine ⟨rfl, rfl, ?_⟩
  calc b.extractLsb' 7 1 ++ 3#2 ++ b.extractLsb' 1 4 ++ b.extractLsb' 0 1
      = b.extractLsb' 7 1 ++ b.extractLsb' 5 2 ++ b.extractLsb' 1 4 ++ b.extractLsb' 0 1 := by rw [h]; rfl
    _ = b := by
      rw [BitVec.extractLsb'_append_extractLsb'_eq_extractLsb' (by omega),
        BitVec.extractLsb'_append_extractLsb'_eq_extractLsb' (by omega),
        BitVec.extractLsb'_append_extractLsb'_eq_extractLsb' (by omega)]
      simp

/-- `0DDDDDDD` (R72): bit 7 of a character up to 0x7B is 0. -/
theorem readsBack_base91 {b : Byte} (h : 0x21 ≤ b ∧ b ≤ 0x7B) :
    ReadsBack .base91 b (.dataB91Char (b.extractLsb' 0 7)) := by
  obtain ⟨hlo, hhi⟩ := h
  have hlow : (b.extractLsb' 0 7).toNat = b.toNat := by
    rw [BitVec.extractLsb'_toNat]
    bv_omega
  have hwf : 0x21 ≤ b.extractLsb' 0 7 ∧ b.extractLsb' 0 7 ≤ 0x7B := by bv_omega
  exact ⟨decide_eq_true hwf, rfl, BitVec.eq_of_toNat_eq ((toNat_encodeOctet_b91Char _).trans hlow)⟩

/-- A decoding that checks a pattern answers only where the pattern fits. -/
theorem pattern_of_ok {c : Prop} [Decidable c] {i j : Instr} {e : DecodeError}
    (h : (if c then Except.ok i else Except.error e) = Except.ok j) : c ∧ i = j := by
  split at h
  · exact ⟨‹c›, Except.ok.inj h⟩
  · cases h

/-- Settles O3: at each place the fields that are read, with the fixed bits that are checked, make up the octet. -/
theorem encodeOfDecodeIsTheOctet : Obligations.EncodeOfDecodeIsTheOctet := by
  intro p b i h
  change ReadsBack p b i
  cases p with
  | command => obtain rfl := Except.ok.inj h; exact readsBack_decodeCommand b
  | callsign => obtain ⟨hb, rfl⟩ := pattern_of_ok h; exact readsBack_callsign hb
  | ssid => obtain ⟨hb, rfl⟩ := pattern_of_ok h; exact readsBack_ssid hb
  | base91 => obtain ⟨hb, rfl⟩ := pattern_of_ok h; exact readsBack_base91 hb
  | control | pid | flag => obtain ⟨hb, rfl⟩ := pattern_of_ok h; exact ⟨rfl, rfl, hb.symm⟩

/-- Settles O1: each octet evaluates. -/
theorem writtenOutWordsDecode : Obligations.WrittenOutWordsDecode :=
  ⟨rfl, rfl, rfl, rfl, rfl, rfl, rfl, rfl, rfl, rfl, rfl, rfl⟩

/-! ## Command words -/

/-- The illegal opcodes (R62). -/
theorem decodeCommand_eq_illegal_iff (op : Byte) : decodeCommand op = .illegal op ↔ op = 0x00 ∨ 0x05 ≤ op.toNat := by
  rcases decodeCommand_cases op with ⟨rfl, hd⟩ | ⟨rfl, hd⟩ | ⟨rfl, hd⟩ | ⟨rfl, hd⟩ | ⟨h1, h2, h3, h4, hd⟩ <;> rw [hd]
  · decide
  · decide
  · decide
  · decide
  · have hill : op = 0x00 ∨ 0x05 ≤ op.toNat := by bv_omega
    exact iff_of_true rfl hill

/-- Settles O4: a command word is its opcode, and an octet is at most 0xFF. -/
theorem everyOctetIsACommandWord : Obligations.EveryOctetIsACommandWord := by
  refine ⟨fun _ _ => rfl, fun op => (readsBack_decodeCommand op).2, fun op => ?_⟩
  have hmax : op.toNat ≤ 0xFF := Nat.le_of_lt_succ op.isLt
  rw [decodeCommand_eq_illegal_iff, and_iff_left hmax]

/-! ## Steps that run a decoded word (R44, R61) -/

theorem decodeCommand_of_decode {op : Byte} {i : Instr} (h : decode [op] = .ok (i, [])) : decodeCommand op = i := by
  cases h; rfl

/-- A table word of 8 bits is decoded by its low octet. -/
theorem decodeCommand_of_decodeTableWord {w : Nat} {i : Instr} (h : decodeTableWord 8 w = some i) :
    decodeCommand (BitVec.ofNat 8 w) = i := by
  cases h; rfl

/-- The fetched word comes as a write of `CMD` with its low octet. -/
theorem step_withFetchWord (s : State) (w : Nat) :
    step (s.withFetchWord 8 w) = exec (decodeCommand (BitVec.ofNat 8 w)) s := by
  have htrunc : BitVec.ofNat 8 (w % 2 ^ 8) = BitVec.ofNat 8 w := BitVec.eq_of_toNat_eq (by simp)
  rw [step_of_command (s := s.withFetchWord 8 w) rfl, htrunc]
  rfl

/-- Settles O6: both ways the step is `exec` of what the low octet decodes to. -/
theorem aStepRunsTheDecodedInstruction : Obligations.AStepRunsTheDecodedInstruction := by
  refine ⟨fun s v rest i hi hd => ?_, fun s w i hd => ?_⟩
  · rw [step_of_command hi, decodeCommand_of_decode hd]
  · rw [step_withFetchWord, decodeCommand_of_decodeTableWord hd]

end Sys2Proof.Machine
end

section
/-! SUPPORT. The statements about commands: the outcome before is forgotten, what an illegal opcode records, and what the
data patterns do as command words (log 1). -/

namespace Sys2Proof.Machine

/-! ## What a command finds (R61, R207) -/

/-- A command that finds the block idle, as `exec` of its row. -/
theorem exec_idle {s : State} (hb : s.busy = false) (i : Instr) :
    exec i s = .next (operation i s.clearCommandStatus) := by
  rw [exec_eq, State.issue_idle s _ hb]

/-- Settles O19: the operation starts from the cleared status, which forgets the outcome. -/
theorem aCommandForgetsTheOutcomeBefore : Obligations.ACommandForgetsTheOutcomeBefore := by
  intro i s d w e n hb
  rw [exec_idle (s := { s with done := d, err := e, einfo := n, warnRate := w }) hb, State.clearCommandStatus_forgets,
    exec_idle hb]

/-! ## Illegal opcodes (R62) -/

/-- What an illegal opcode makes of an idle block. -/
theorem exec_of_illegalCommand {s : State} (hb : s.busy = false) {i : Instr} (hi : operation i = illegalCommand) :
    exec i s = .next { s with done := false, err := .badCmd, einfo := 0, warnRate := false } := by
  rw [exec_idle hb, hi, illegalCommand, State.raise_clearCommandStatus hb]

/-- Settles O44: the row of every illegal opcode raises BAD_CMD on the cleared status; while busy the write is dropped. -/
theorem illegalOpcodesRecordBadCmd : Obligations.IllegalOpcodesRecordBadCmd := by
  refine ⟨fun op s hb _ => exec_of_illegalCommand hb rfl, fun s op v rest hb hop hi hv => ?_,
    fun s v rest => step_of_regWrite_busy⟩
  rw [step_of_command hi, hv, (decodeCommand_eq_illegal_iff op).2 hop]
  exact exec_of_illegalCommand (s := { s with inbox := rest }) hb rfl

/-! ## Data patterns as command words (log 1) -/

theorem commandOf_of_illegal {op : Byte} (h : op = 0x00 ∨ 0x05 ≤ op.toNat) : commandOf op = illegalCommand := by
  rw [commandOf, (decodeCommand_eq_illegal_iff op).2 h]

/-- The SSID pattern has bits 6:5 set (R65), so no command has its octet. -/
theorem commandOf_ssid (h : BitVec 1) (ssid : BitVec 4) (l : BitVec 1) :
    commandOf (encodeOctet (.dataSsidOctet h ssid l)) = illegalCommand := by
  have hval := toNat_encodeOctet_ssid h ssid l
  exact commandOf_of_illegal (.inr (by omega))

/-- A base-91 character is at least 0x21 (R72). -/
theorem commandOf_b91Char {d : BitVec 7} (hd : 0x21 ≤ d.toNat) :
    commandOf (encodeOctet (.dataB91Char d)) = illegalCommand := by
  have hval := toNat_encodeOctet_b91Char d
  exact commandOf_of_illegal (.inr (by omega))

/-- A callsign octet is twice its character (R64): of the commands BUILD and MODRST alone are even. -/
theorem commandOf_callsign {c : BitVec 7} (h1 : c ≠ 1) (h2 : c ≠ 2) :
    commandOf (encodeOctet (.dataCallsignOctet c)) = illegalCommand := by
  have hval := toNat_encodeOctet_callsign c
  have hill : encodeOctet (.dataCallsignOctet c) = 0x00 ∨ 0x05 ≤ (encodeOctet (.dataCallsignOctet c)).toNat := by
    bv_omega
  exact commandOf_of_illegal hill

/-- TRANSMIT of a valid descriptor and rates starts a stream (R175). -/
theorem transmitCommand_stream {s : State} (hok : DescriptorOk s) (hrates : RatesOk s) :
    ∃ f, (transmitCommand s).seq = .stream f := by
  obtain ⟨hsr, hbr⟩ := hrates
  have hv : validate s = none := (validate_eq_none_iff s).2 hok
  rcases transmitCommand_cases s with ⟨_, _, hv', -⟩ | ⟨_, _, -, hc, -⟩ | ⟨-, -, ht⟩
  · cases hv.symm.trans hv'
  · rcases configCheck_cases s with ⟨h, -⟩ | ⟨-, h, -⟩ | ⟨-, hc'⟩
    · exact absurd h hsr
    · exact absurd h hbr
    · cases hc.symm.trans hc'
  · exact ⟨_, by rw [ht]; rfl⟩

/-- Settles O45: each pattern has the operation of its octet. -/
theorem dataPatternsActAsTheirOctets : Obligations.DataPatternsActAsTheirOctets := by
  intro s hb badCmd
  have hctrl : exec .dataCtrlUi s = exec .transmit s := rfl
  refine ⟨exec_of_illegalCommand hb rfl, exec_of_illegalCommand hb rfl,
    fun h ssid l => exec_of_illegalCommand hb (commandOf_ssid h ssid l),
    fun d hd => exec_of_illegalCommand hb (commandOf_b91Char hd), hctrl, fun hok hrates => ?_, rfl, rfl,
    fun c h1 h2 => exec_of_illegalCommand hb (commandOf_callsign h1 h2)⟩
  obtain ⟨f, hf⟩ := transmitCommand_stream (s := s.clearCommandStatus) hok hrates
  exact ⟨_, f, hctrl.trans (exec_idle hb .transmit), hf⟩

end Sys2Proof.Machine
end

section
/-! SUPPORT. The statements about the layout of the frame: the table of R67, octet by octet, and the mark of the last
address octet (R66). -/

namespace Sys2Proof.Machine

/-! ## The octets of an address group (R64, R65) -/

/-- The character is shifted left, bit 7 lost. -/
theorem toNat_callsignOctet (c : Byte) : (callsignOctet c).toNat = c.toNat * 2 % 256 := by
  rw [callsignOctet, BitVec.toNat_shiftLeft, Nat.shiftLeft_eq]

theorem callsignOctet_getLsbD_zero (c : Byte) : (callsignOctet c).getLsbD 0 = false := by
  simp [callsignOctet]

/-- The octet the builder computes is the one the table writes field by field. -/
theorem ssidOctet_eq_encodeOctet (h : BitVec 1) (ssid : BitVec 4) (l : BitVec 1) :
    ssidOctet h ssid l = encodeOctet (.dataSsidOctet h ssid l) := by
  revert h ssid l
  decide +kernel

theorem toNat_ssidOctet (h : BitVec 1) (ssid : BitVec 4) (l : BitVec 1) :
    (ssidOctet h ssid l).toNat = h.toNat * 128 + 96 + ssid.toNat * 2 + l.toNat := by
  rw [ssidOctet_eq_encodeOctet, toNat_encodeOctet_ssid]

theorem ssidOctet_getLsbD_zero (h : BitVec 1) (ssid : BitVec 4) (l : BitVec 1) :
    (ssidOctet h ssid l).getLsbD 0 = l.getLsbD 0 := by
  simp [ssidOctet]

/-! ## The mark of the last address octet (R66, R102) -/

/-- `NPATH` of a frame that is built. -/
theorem npath_cases {p : BitVec 2} (h : p ≠ 3) : p = 0 ∨ p = 1 ∨ p = 2 := by
  revert p
  decide

/-- Bit 0 of the seven octets of a group: `L` at the end, 0 before. -/
theorem addrOctets_map_getLsbD_zero (a : AddrReg) (isPath : Bool) (l : BitVec 1) :
    (addrOctets a isPath l).map (·.getLsbD 0) = List.replicate 6 false ++ [l.getLsbD 0] := by
  rw [addrOctets, List.map_append, List.map_map]
  refine congrArg₂ _ ?chars ?ssid
  case chars => exact List.map_eq_replicate_iff.2 fun _ _ => callsignOctet_getLsbD_zero _
  case ssid => rw [List.map_singleton, ssidOctet_getLsbD_zero]

/-- Bit 0 of the address field: 1 at the end, 0 before, for 0, 1 or 2 repeaters. -/
theorem addressField_map_getLsbD_zero {s : State} (h : s.npath ≠ 3) :
    (addressField s).map (·.getLsbD 0) = List.replicate (13 + 7 * s.npath.toNat) false ++ [true] := by
  rcases npath_cases h with hp | hp | hp <;>
    simp only [addressField, hp, List.map_append, addrOctets_map_getLsbD_zero, apply_ite] <;> rfl

/-- Settles O25: bit 0 read along the address field is a run of 0s and then one 1. -/
theorem onlyTheLastAddressOctetIsMarked : Obligations.OnlyTheLastAddressOctetIsMarked := by
  refine fun s h => ⟨addressField_length h, fun i hi => ?_⟩
  rw [← List.getElem?_map, addressField_map_getLsbD_zero h]
  by_cases hlast : i + 1 = 14 + 7 * s.npath.toNat
  · have hi' : i = 13 + 7 * s.npath.toNat := by omega
    rw [decide_eq_true hlast, hi', List.getElem?_append_right (by simp)]
    simp
  · rw [decide_eq_false hlast, List.getElem?_append_left (by rw [List.length_replicate]; omega),
      List.getElem?_replicate_of_lt (by omega)]

/-! ## The segments of the frame (R67, R103 to R105) -/

/-- Where a segment of a list stands, its elements are read. -/
theorem getElem?_segment {α : Type} {l p m q : List α} (hl : l = p ++ (m ++ q)) {i j : Nat} (hi : i < m.length)
    (hj : p.length + i = j) : l[j]? = m[i]? := by
  rw [hl, ← hj, List.getElem?_append_right (Nat.le_add_right _ _), Nat.add_sub_cancel_left, List.getElem?_append_left hi]

/-- The seven octets from `start` on are those of the address `a`, with `H` and `L` as given. -/
def GroupAt (octets : List Byte) (start : Nat) (a : AddrReg) (h l : Nat) : Prop :=
  (∀ i, i < 6 → ∃ c, octets[start + i]? = some c ∧
    c.toNat = (if i < a.clen.toNat then a.char i else 0x20).toNat * 2 % 256) ∧
  ∃ c, octets[start + 6]? = some c ∧ c.toNat = h * 128 + 96 + a.ssid.toNat * 2 + l

theorem groupAt_of_segment {octets p q : List Byte} {a : AddrReg} {isPath : Bool} {l : BitVec 1} {start h n : Nat}
    (hseg : octets = p ++ (addrOctets a isPath l ++ q)) (hstart : p.length = start)
    (hh : (if isPath then a.h else 0).toNat = h) (hl : l.toNat = n) : GroupAt octets start a h n := by
  subst hstart hh hl
  have hread {i : Nat} (hi : i < 7) : octets[p.length + i]? = (addrOctets a isPath l)[i]? :=
    getElem?_segment hseg (by rwa [addrOctets_length]) rfl
  refine ⟨fun i hi => ⟨_, (hread (by omega)).trans (addrOctets_char a isPath l hi), toNat_callsignOctet _⟩, ?_⟩
  exact ⟨_, (hread (by omega)).trans (addrOctets_ssid a isPath l), toNat_ssidOctet _ _ _⟩

/-- The frame goes on from its address field. -/
theorem frame_eq (s : State) : frame s =
    addressField s ++ ([ctrlUi, pidNol3] ++ (s.octets .pbuf s.plen.toNat ++ fcsOctets (body s))) := by
  simp only [frame, body, header, List.append_assoc]

/-- The bit `L` of the group that is the last one for `NPATH = p` (R102). -/
theorem toNat_lastGroupBit (x p : BitVec 2) :
    (if x = p then (1 : BitVec 1) else 0).toNat = if x.toNat = p.toNat then 1 else 0 := by
  simp only [apply_ite BitVec.toNat, BitVec.toNat_inj]
  rfl

section
variable {s : State}

theorem groupAt_frame_dst : GroupAt (frame s) 0 s.addrDst 0 0 := by
  have hseg := frame_eq s
  rw [addressField, List.append_assoc, List.append_assoc, List.append_assoc] at hseg
  exact groupAt_of_segment (p := []) hseg rfl rfl rfl

theorem groupAt_frame_src : GroupAt (frame s) 7 s.addrSrc 0 (if s.npath.toNat = 0 then 1 else 0) := by
  have hseg := frame_eq s
  simp only [addressField, List.append_assoc] at hseg
  exact groupAt_of_segment hseg (addrOctets_length _ _ _) rfl (toNat_lastGroupBit _ _)

theorem groupAt_frame_path1 (h : 1 ≤ s.npath.toNat) :
    GroupAt (frame s) 14 s.addrPath1 s.addrPath1.h.toNat (if s.npath.toNat = 1 then 1 else 0) := by
  have hused : 1 ≤ s.npath := h
  have hseg := frame_eq s
  rw [addressField, if_pos hused] at hseg
  simp only [List.append_assoc] at hseg
  rw [← List.append_assoc] at hseg
  refine groupAt_of_segment hseg ?_ rfl (toNat_lastGroupBit _ _)
  rw [List.length_append, addrOctets_length, addrOctets_length]

theorem groupAt_frame_path2 (h : s.npath.toNat = 2) :
    GroupAt (frame s) 21 s.addrPath2 s.addrPath2.h.toNat 1 := by
  have hused : s.npath = 2 := BitVec.eq_of_toNat_eq h
  have hseg := frame_eq s
  rw [addressField, if_pos hused, List.append_assoc] at hseg
  refine groupAt_of_segment hseg ?_ rfl rfl
  simp [hused]

variable (h : s.npath ≠ 3)
include h

theorem header_length : (header s).length = 16 + 7 * s.npath.toNat := by
  simp only [header, List.length_append, addressField_length h, List.length_cons, List.length_nil]
  omega

theorem body_length : (body s).length = 16 + 7 * s.npath.toNat + s.plen.toNat := by
  rw [body, List.length_append, header_length h, State.octets_length]

theorem frame_getElem?_ctrlUi : (frame s)[14 + 7 * s.npath.toNat]? = some ctrlUi :=
  getElem?_segment (frame_eq s) (i := 0) Nat.two_pos (addressField_length h)

theorem frame_getElem?_pidNol3 : (frame s)[15 + 7 * s.npath.toNat]? = some pidNol3 :=
  getElem?_segment (frame_eq s) (i := 1) Nat.one_lt_two (by rw [addressField_length h]; omega)

theorem frame_getElem?_payload {i : Nat} (hi : i < s.plen.toNat) :
    (frame s)[16 + 7 * s.npath.toNat + i]? = some (s.octet .pbuf i) := by
  have hseg : frame s = header s ++ (s.octets .pbuf s.plen.toNat ++ fcsOctets (body s)) := List.append_assoc _ _ _
  rw [getElem?_segment hseg (by rwa [State.octets_length]) (by rw [header_length h]), State.octets_getElem? _ _ hi]

/-- The check sequence is that of the octets before it (R105). -/
theorem frame_take_body : (frame s).take (16 + 7 * s.npath.toNat + s.plen.toNat) = body s :=
  List.take_left' (body_length h)

theorem frame_getElem?_fcs {i j : Nat} (hi : i < 2) (hj : 16 + 7 * s.npath.toNat + s.plen.toNat + i = j) :
    (frame s)[j]? = (fcsOctets (body s))[i]? := by
  have hseg : frame s = body s ++ (fcsOctets (body s) ++ []) := by rw [List.append_nil, frame]
  exact getElem?_segment hseg hi (by rw [body_length h, hj])

end

/-- The low octet of a 16-bit value, and its high octet (R69). -/
theorem toNat_low_octet (x : Half) : (x.extractLsb' 0 8).toNat = x.toNat % 256 := by
  rw [BitVec.extractLsb'_toNat]
  rfl

theorem toNat_high_octet (x : Half) : (x.extractLsb' 8 8).toNat = x.toNat / 256 := by
  rw [BitVec.extractLsb'_toNat, Nat.shiftRight_eq_div_pow]
  omega

/-- Settles O24: the frame is its segments one after the other, and each is read where it stands. -/
theorem theFrameIsLaidOutAsTheTable : Obligations.TheFrameIsLaidOutAsTheTable := by
  intro s h P N char group
  have hlow : (frame s)[16 + 7 * P + N]? = (fcsOctets (body s))[0]? := frame_getElem?_fcs h Nat.two_pos rfl
  have hhigh : (frame s)[17 + 7 * P + N]? = (fcsOctets (body s))[1]? :=
    frame_getElem?_fcs h Nat.one_lt_two (by omega)
  rw [frame_take_body h]
  exact ⟨frame_length h, groupAt_frame_dst, groupAt_frame_src, groupAt_frame_path1, groupAt_frame_path2,
    frame_getElem?_ctrlUi h, frame_getElem?_pidNol3 h, fun i => frame_getElem?_payload h,
    ⟨_, hlow, toNat_low_octet _⟩, ⟨_, hhigh, toNat_high_octet _⟩⟩

end Sys2Proof.Machine
end

section
/-! SUPPORT. The statements about base-91 (40_base91.md): the closed form, truncation, the corners of the width, and what
B91ENC stores. -/

namespace Sys2Proof.Machine

/-! ## Characters (R72, R91) -/

/-- A digit's character does not wrap. -/
theorem toNat_base91Char_mod (n : Nat) : (base91Char (n % 91)).toNat = 33 + n % 91 := by
  have hdigit : n % 91 < 91 := Nat.mod_lt n (by decide)
  exact Nat.mod_eq_of_lt (by omega)

/-- The closed form of R91: each division takes one factor 91 off the place of the digits that are left. -/
theorem base91_getElem? (value : Nat) {width i : Nat} (hi : i < width) :
    (base91 value width)[i]? = some (base91Char (value / 91 ^ (width - 1 - i) % 91)) := by
  induction width generalizing value with
  | zero => exact absurd hi (Nat.not_lt_zero i)
  | succ w ih =>
    rw [base91]
    rcases Nat.lt_succ_iff_lt_or_eq.1 hi with hlt | rfl
    · have hplace : w + 1 - 1 - i = w - 1 - i + 1 := by omega
      rw [List.getElem?_append_left (by rwa [base91_length]), ih _ hlt, Nat.div_div_eq_div_mul, hplace, Nat.pow_succ']
    · rw [List.getElem?_append_right (base91_length _ _).le]
      simp

/-- Settles O20: the character of a digit is 33 more than the digit, which is at most 90. -/
theorem base91IsTheClosedForm : Obligations.Base91IsTheClosedForm := by
  refine fun value width => ⟨base91_length value width, fun i hi => ⟨_, base91_getElem? value hi, ?_⟩⟩
  have hdigit : value / 91 ^ (width - 1 - i) % 91 < 91 := Nat.mod_lt _ (by decide)
  rw [toNat_base91Char_mod]
  exact ⟨rfl, by omega, by omega⟩

/-! ## Truncation (R92) -/

/-- The characters depend on the low-order digits alone. -/
theorem base91_mod_pow (value width : Nat) : base91 (value % 91 ^ width) width = base91 value width := by
  induction width generalizing value with
  | zero => rfl
  | succ w ih =>
    rw [base91, base91, Nat.pow_succ', Nat.mod_mul_right_div_self, Nat.mod_mul_right_mod, ih]

/-- Reading a last character multiplies what was read before it by 91. -/
theorem base91Value_concat (chars : List Byte) (c : Byte) :
    base91Value (chars ++ [c]) = base91Value chars * 91 + (c.toNat - 33) := List.foldl_concat _ _ _ _

/-- The characters read back as the value's low-order digits. -/
theorem base91Value_base91 (value width : Nat) : base91Value (base91 value width) = value % 91 ^ width := by
  induction width generalizing value with
  | zero => exact (Nat.mod_one value).symm
  | succ w ih =>
    rw [base91, base91Value_concat, ih, toNat_base91Char_mod, Nat.pow_succ', Nat.mod_mul]
    omega

/-! ## B91ENC (R90) -/

/-- B91ENC while idle ends with DONE alone. -/
theorem commandOutcome_b91encCommand (s : State) :
    CommandOutcome (b91encCommand s.clearCommandStatus) true .none 0 false := ⟨rfl, rfl, rfl, rfl⟩

/-- Settles O21: the characters are those of the low-order digits, and width 4 holds what is below 91^4. -/
theorem base91TruncatesSilently : Obligations.Base91TruncatesSilently := by
  refine ⟨fun value width => (base91_mod_pow value width).symm, base91Value_base91, fun value => ?_,
    fun s hb => ⟨_, exec_idle hb .b91enc, commandOutcome_b91encCommand s⟩⟩
  rw [base91Value_base91, Nat.mod_eq_iff_lt (by decide)]
  exact Nat.lt_succ_iff

/-- What B91ENC leaves listed in `B91OUT`: the characters from index 0 on, then what was listed before. -/
theorem read_b91out_b91encCommand (s : State) (i : Nat) : (b91encCommand s).b91out.read i =
    if i < s.b91Width.toNat then (base91 s.b91Value.toNat s.b91Width.toNat)[i]? else s.b91out.read i := by
  rw [b91encCommand, State.markDone_b91out, Memory.read_writeList, base91_length]
  simp

/-- Every width of the register fits `B91OUT`, so each character is read where it was stored. -/
theorem octet_b91encCommand_of_lt (s : State) {i : Nat} (hi : i < s.b91Width.toNat) :
    (b91encCommand s).octet .b91out i = base91Char (s.b91Value.toNat / 91 ^ (s.b91Width.toNat - 1 - i) % 91) := by
  have hwidth : s.b91Width.toNat < 16 := s.b91Width.isLt
  have hin : i < 15 := by omega
  exact State.octet_eq_of_read _ hin <| by
    rw [State.buf, read_b91out_b91encCommand, if_pos hi, base91_getElem? _ hi]

/-- The octets from `B91_WIDTH` on stay. -/
theorem octet_b91encCommand_of_le (s : State) {i : Nat} (hi : s.b91Width.toNat ≤ i) :
    (b91encCommand s).octet .b91out i = s.octet .b91out i :=
  State.octet_congr rfl <| by
    rw [State.buf, State.buf, read_b91out_b91encCommand, if_neg hi.not_gt]

/-- No register but `STATUS` shows what B91ENC writes or clears. -/
theorem sameRegs_b91encCommand (s : State) : SameRegs s (b91encCommand s.clearCommandStatus) [.status] := by
  intro r hr
  cases r with
  | status => exact absurd (List.mem_singleton_self _) hr
  | _ => rfl

/-- Settles O23: clearing the status moves neither the operands nor `B91OUT`, so the octets are those of the command. -/
theorem b91encStoresTheCharacters : Obligations.B91encStoresTheCharacters := by
  intro s hb
  have hidle : s.seq = .idle := (State.busy_eq_false_iff s).1 hb
  exact ⟨_, exec_idle hb .b91enc, fun i => octet_b91encCommand_of_lt s.clearCommandStatus,
    fun i => octet_b91encCommand_of_le s.clearCommandStatus, commandOutcome_b91encCommand s, rfl, hidle,
    sameRegs_b91encCommand s, fun _ => rfl, fun _ => rfl, ⟨rfl, rfl⟩, ⟨rfl, rfl, rfl, rfl, rfl, rfl⟩⟩

/-! ## The corners of the width (R93) -/

/-- The digits of 0 are all 0. -/
theorem base91_zero_value (width : Nat) : base91 0 width = List.replicate width 0x21 := by
  induction width with
  | zero => rfl
  | succ w ih =>
    rw [base91, Nat.zero_div, ih, List.replicate_succ']
    rfl

/-- More width than a value needs puts `!` in front. -/
theorem base91_add_width {value width : Nat} (h : value < 91 ^ width) (n : Nat) :
    base91 value (n + width) = List.replicate n 0x21 ++ base91 value width := by
  induction width generalizing value with
  | zero =>
    have hzero : value = 0 := Nat.lt_one_iff.1 h
    rw [hzero, Nat.add_zero, base91_zero_value, base91, List.append_nil]
  | succ w ih =>
    have hdiv : value / 91 < 91 ^ w := Nat.div_lt_of_lt_mul (by rwa [← Nat.pow_succ'])
    rw [← Nat.add_assoc, base91, ih hdiv, base91, List.append_assoc]

/-- Settles O22: a 32-bit value is below 91^5, so five characters hold it and more only put `!` in front. -/
theorem base91WidthCorners : Obligations.Base91WidthCorners := by
  refine fun value => ⟨rfl, fun hvalue width hwidth => ?_⟩
  have hfits : value < 91 ^ 5 := hvalue.trans (by decide)
  have hread : value < 91 ^ width := hfits.trans_le (Nat.pow_le_pow_right (by decide) hwidth)
  obtain ⟨n, rfl⟩ := Nat.exists_eq_add_of_le' hwidth
  exact ⟨(base91Value_base91 _ _).trans (Nat.mod_eq_of_lt hread), by rw [base91_add_width hfits, Nat.add_sub_cancel]⟩

end Sys2Proof.Machine
end

section
/-! SUPPORT. The statements about the frame builder: what a receiver reads back from an address (R111), the descriptor
errors of BUILD and TRANSMIT (R110), and what BUILD assembles (R108). -/

namespace Sys2Proof.Machine

/-! ## Addresses read back (R111) -/

/-- A character without bit 7 survives the shift of R64. -/
theorem callsignOctet_ushiftRight_one {c : Byte} (hc : c.toNat < 0x80) : callsignOctet c >>> 1 = c := by
  refine BitVec.eq_of_toNat_eq ?_
  rw [BitVec.toNat_ushiftRight, Nat.shiftRight_eq_div_pow, toNat_callsignOctet]
  omega

/-- Bits 4:1 of the SSID octet (R65). -/
theorem ssidOctet_extract_ssid (h : BitVec 1) (ssid : BitVec 4) (l : BitVec 1) :
    (ssidOctet h ssid l).extractLsb' 1 4 = ssid := by
  revert h ssid l
  decide +kernel

/-- Shifted back, the first six octets of an address are its characters and the padding. -/
theorem addrOctets_take_ushiftRight {a : AddrReg} (hchar : ∀ i, i < a.clen.toNat → (a.char i).toNat < 0x80)
    (isPath : Bool) (l : BitVec 1) : (((addrOctets a isPath l).take 6).map fun (o : Byte) => o >>> 1) =
      (List.range 6).map fun i => if i < a.clen.toNat then a.char i else 0x20 := by
  rw [addrOctets, List.take_left' (by simp), List.map_map]
  refine List.map_congr_left fun i _ => callsignOctet_ushiftRight_one ?_
  split_ifs with hi
  · exact hchar i hi
  · decide

/-- Dropping from the end what satisfies `p` undoes padding with a value that satisfies it. -/
theorem rdropWhile_padded {α : Type} {p : α → Bool} {pad : α} (hpad : p pad) (f : Nat → α) {n m : Nat}
    (hnm : n ≤ m) :
    ((List.range m).map fun i => if i < n then f i else pad).rdropWhile p = ((List.range n).map f).rdropWhile p := by
  induction m, hnm using Nat.le_induction with
  | base => exact congrArg _ (List.map_congr_left fun i hi => if_pos (List.mem_range.1 hi))
  | succ m hnm ih =>
    rw [List.range_succ, List.map_append, List.map_singleton, if_neg hnm.not_gt,
      List.rdropWhile_concat_pos _ _ _ hpad, ih]

/-- Nothing is dropped where the last element does not satisfy `p`. -/
theorem rdropWhile_range_map {α : Type} {p : α → Bool} {f : Nat → α} {n : Nat} (hn : 1 ≤ n)
    (hlast : ¬p (f (n - 1))) : ((List.range n).map f).rdropWhile p = (List.range n).map f := by
  obtain ⟨n, rfl⟩ := Nat.exists_eq_add_of_le' hn
  rw [List.range_succ, List.map_append]
  exact List.rdropWhile_concat_neg _ _ _ hlast

/-- Settles O26: the six octets shift back to the characters and the padding; the padding is dropped and, the last
character being no space, nothing else. -/
theorem addressesRoundTrip : Obligations.AddressesRoundTrip := by
  intro a isPath l hpos hmax hchar hlast
  constructor
  · rw [receivedCall, addrOctets_take_ushiftRight hchar, rdropWhile_padded (p := (· == 0x20)) rfl _ hmax,
      rdropWhile_range_map hpos (by simpa using hlast)]
  · rw [addrOctets_ssid, Option.map_some, ssidOctet_extract_ssid]

/-! ## Descriptor errors (R106, R107, R110) -/

/-- BUILD and TRANSMIT both validate before anything else, and raise what the validation finds. -/
theorem exec_of_validate_some {i : Instr} {s : State} (hi : i = .build ∨ i = .transmit) (hb : s.busy = false)
    {e : ErrorCode} {n : BitVec 3} (hv : validate s = some (e, n)) :
    exec i s = .next { s with done := false, err := e, einfo := n, warnRate := false } := by
  have hvc : validate s.clearCommandStatus = some (e, n) := hv
  have hop : operation i s.clearCommandStatus = s.clearCommandStatus.raise e n := by
    rcases hi with rfl | rfl
    · rw [operation, buildCommand, hvc]
    · rw [operation, transmitCommand, hvc]
  rw [exec_idle hb, hop, State.raise_clearCommandStatus hb]

/-- Settles O29: each clause says which checks of the validation pass and which one fails. -/
theorem descriptorErrorsAreReportedInOrder : Obligations.DescriptorErrorsAreReportedInOrder := by
  intro i s hi hb rejected
  have hreject {e : ErrorCode} {n : BitVec 3} : validate s = some (e, n) → rejected e n := exec_of_validate_some hi hb
  simp only [← AddrReg.malformed_eq_true_iff]
  refine ⟨fun hnpath => hreject ?npath, fun hnpath hdst => hreject ?dst, fun hnpath hdst hsrc => hreject ?src,
    fun hnpath hdst hsrc hused hpath1 => hreject ?path1, fun htwo hdst hsrc hpath1 hpath2 => hreject ?path2,
    fun hnpath hdst hsrc hpath1 hpath2 hplen => hreject ?plen⟩
  case npath => rw [validate, if_pos hnpath]
  case dst => rw [validate, if_neg hnpath, if_pos hdst]
  case src => rw [validate, if_neg hnpath, if_neg hdst, if_pos hsrc]
  case path1 => rw [validate, if_neg hnpath, if_neg hdst, if_neg hsrc, if_pos ⟨hused, hpath1⟩]
  case path2 =>
    have hnpath : s.npath ≠ 3 := by rw [htwo]; decide
    rw [validate, if_neg hnpath, if_neg hdst, if_neg hsrc, if_neg fun h => hpath1 h.2, if_pos ⟨htwo, hpath2⟩]
  case plen =>
    rw [validate, if_neg hnpath, if_neg hdst, if_neg hsrc, if_neg fun h => hpath1 h.1 h.2,
      if_neg fun h => hpath2 h.1 h.2]
    exact if_pos hplen

/-! ## BUILD of a valid descriptor (R108, R109) -/

/-- All that BUILD does while idle, once the descriptor is valid: the outcome is DONE alone, the frame is listed in
`FBUF` from index 0, what was listed from its length on stays, and `FLEN` is the length. -/
theorem exec_build_of_descriptorOk {s : State} (hb : s.busy = false) (hok : DescriptorOk s) :
    ∃ m n, exec .build s =
        .next { s with done := true, err := .none, einfo := 0, warnRate := false, fbuf := m, flen := n } ∧
      n.toNat = frameLength s ∧ (∀ i, i < frameLength s → m.read i = (frame s)[i]?) ∧
      ∀ i, frameLength s ≤ i → m.read i = s.fbuf.read i := by
  have hok' : DescriptorOk s.clearCommandStatus := hok
  have hframe : frame s.clearCommandStatus = frame s := frame_congr rfl rfl fun _ _ => rfl
  obtain ⟨m, n, heq, hlen, hread, habove, -⟩ := assemble_spec hok'
  rw [hframe] at hread
  refine ⟨m, n, ?_, hlen, hread, habove⟩
  rw [exec_idle hb, operation, buildCommand, (validate_eq_none_iff _).2 hok', heq]
  rfl

/-- Settles O28: an octet of `FBUF` below the frame's length reads as listed, the frame being no longer
than `FBUF`. -/
theorem buildAssemblesTheFrame : Obligations.BuildAssemblesTheFrame := by
  intro s hb hok
  obtain ⟨m, n, hexec, hlen, hread, habove⟩ := exec_build_of_descriptorOk hb hok
  have hframe : (frame s).length = frameLength s := frame_length hok.1
  have hfits : frameLength s ≤ 288 := (frameLength_le hok).2
  refine ⟨_, hexec, hframe, ?flen, fun i hi => ?inFrame, fun i hi => ?above, ⟨rfl, rfl, rfl, rfl⟩, rfl,
    (State.busy_eq_false_iff s).1 hb, fun r hr => ?regs, fun _ => rfl, fun _ => rfl, ⟨rfl, rfl⟩,
    ⟨rfl, rfl, rfl, rfl, rfl, rfl⟩⟩
  case flen => exact (BitVec.toNat_setWidth_of_le (by decide)).trans (hlen.trans hframe.symm)
  case inFrame =>
    have hi' : i < frameLength s := hframe ▸ hi
    have hoctet : (frame s)[i]? = some (frame s)[i] := List.getElem?_eq_getElem hi
    refine hoctet.trans (congrArg some (Eq.symm ?_))
    exact State.octet_eq_of_read (space := .fbuf) _ (hi'.trans_le hfits) ((hread i hi').trans hoctet)
  case above => exact State.octet_congr rfl (habove i (hframe ▸ hi))
  case regs =>
    cases r with
    | status | flen => simp at hr
    | _ => rfl

end Sys2Proof.Machine
end

section
/-! SUPPORT. The statements about the check sequence (42_crc_fcs.md): the register takes one bit at a time (R121, R122),
and the residue (R124). -/

namespace Sys2Proof.Machine

/-! ## One bit at a time (R121, R122) -/

/-- The register takes one data bit. -/
def crcBit (crc : Half) (d : Bool) : Half :=
  if crc.getLsbD 0 != d then (crc >>> 1) ^^^ 0x8408 else crc >>> 1

/-- Of data held in the register, a shift takes in bit 0 as the one-bit form does; the rest moves one place down. -/
theorem crcShift_xor_eq_crcBit (crc w : Half) : crcShift (crc ^^^ w) = crcBit crc (w.getLsbD 0) ^^^ (w >>> 1) := by
  rw [crcShift, crcBit, crcPoly, BitVec.getLsbD_xor, ← Bool.bne_eq_xor, BitVec.ushiftRight_xor_distrib]
  split
  · ac_rfl
  · rfl

/-- `n` shifts take in the lower `n` bits of the data, bit 0 first. -/
theorem crcShift_iterate_xor (crc w : Half) (n : Nat) :
    crcShift^[n] (crc ^^^ w) = ((List.range n).map w.getLsbD).foldl crcBit crc ^^^ (w >>> n) := by
  induction n with
  | zero => rw [BitVec.ushiftRight_zero]; rfl
  | succ n ih =>
    have hbit : (w >>> n).getLsbD 0 = w.getLsbD n := BitVec.getLsbD_ushiftRight ..
    rw [Function.iterate_succ_apply', ih, crcShift_xor_eq_crcBit, hbit, ← BitVec.shiftRight_add, List.range_succ,
      List.map_append, List.foldl_append]
    rfl

/-- The bits of an octet are the low bits of what enters the register. -/
theorem octetBits_eq_map_zeroExtend (b : Byte) : octetBits b = (List.range 8).map (b.zeroExtend 16).getLsbD := by
  refine List.map_congr_left (f := b.getLsbD) (l := List.range 8) fun i hi => ?_
  have hi : i < 16 := (List.mem_range.1 hi).trans (by decide)
  rw [BitVec.zeroExtend, BitVec.getLsbD_setWidth, decide_eq_true hi, Bool.true_and]

/-- The eight shifts of an octet take in its bits, and leave nothing of it (R121). -/
theorem crcOctet_eq_foldl_crcBit (crc : Half) (b : Byte) : crcOctet crc b = (octetBits b).foldl crcBit crc := by
  have hrest : b.zeroExtend 16 >>> 8 = (0 : Half) := by
    apply BitVec.eq_of_getLsbD_eq
    intro i _
    simp
  calc crcOctet crc b
      = crcShift^[8] (crc ^^^ b.zeroExtend 16) := rfl
    _ = (octetBits b).foldl crcBit crc := by
        rw [crcShift_iterate_xor, hrest, ← octetBits_eq_map_zeroExtend]
        exact BitVec.xor_zero

/-- From any contents of the register, octets are their bits. -/
theorem foldl_crcOctet_eq_foldl_crcBit (octets : List Byte) (crc : Half) :
    octets.foldl crcOctet crc = (bits octets).foldl crcBit crc := by
  induction octets generalizing crc with
  | nil => rfl
  | cons b rest ih => rw [List.foldl_cons, ih, crcOctet_eq_foldl_crcBit, bits, List.foldl_append]

/-- Settles O30: each octet is its bits, by linearity of the shift, and the register goes on from there. -/
theorem theCrcTakesOneBitAtATime : Obligations.TheCrcTakesOneBitAtATime :=
  fun octets => foldl_crcOctet_eq_foldl_crcBit octets crcInit

/-! ## The residue (R124) -/

/-- Settles O31: the residue that the invariant rests on. -/
theorem theCheckSequenceLeavesTheResidue : Obligations.TheCheckSequenceLeavesTheResidue :=
  crcReg_append_fcsOctets

end Sys2Proof.Machine
end

section
/-! SUPPORT. The statements about the bit-stuffer (43_bit_stuffer.md): the stream (R130, R133), stuffing by cases (R131),
and what follows from the cases: unstuffing (R136), the length (R138) and the runs of 1s (R137). -/

namespace Sys2Proof.Machine

/-! ## The bits of octets and the stream (R130, R133) -/

@[simp] theorem length_octetBits (b : Byte) : (octetBits b).length = 8 := rfl

theorem octetBits_getElem? (b : Byte) {j : Nat} (hj : j < 8) : (octetBits b)[j]? = some (b.getLsbD j) := by
  have hmap : octetBits b = (List.range 8).map b.getLsbD := rfl
  rw [hmap, List.getElem?_map, List.getElem?_range hj, Option.map_some]

theorem length_bits (octets : List Byte) : (bits octets).length = 8 * octets.length := by
  induction octets with
  | nil => rfl
  | cons b rest ih => rw [bits, List.length_append, length_octetBits, ih, List.length_cons, Nat.mul_succ, Nat.add_comm]

theorem bits_getElem? {octets : List Byte} {i : Nat} {b : Byte} (hb : octets[i]? = some b) {j : Nat} (hj : j < 8) :
    (bits octets)[8 * i + j]? = some (b.getLsbD j) := by
  induction octets generalizing i with
  | nil => simp at hb
  | cons a rest ih =>
    rw [bits]
    cases i with
    | zero =>
      obtain rfl : a = b := by simpa using hb
      rw [Nat.mul_zero, Nat.zero_add, List.getElem?_append_left (by simpa using hj), octetBits_getElem? a hj]
    | succ i =>
      have hskip : 8 * (i + 1) + j = (octetBits a).length + (8 * i + j) := by
        rw [length_octetBits, Nat.mul_succ]; ac_rfl
      rw [hskip, List.getElem?_append_right (Nat.le_add_right ..), Nat.add_sub_cancel_left]
      exact ih (by simpa using hb)

theorem bits_flagOctet : bits [flagOctet] = [false, true, true, true, true, true, true, false] := rfl

/-- Settles O32: octet `i` starts at bit `8 * i`, and the flag octet has the bits 01111110. -/
theorem theStreamIsFlagsFrameFlags : Obligations.TheStreamIsFlagsFrameFlags := by
  refine ⟨fun octets => ⟨length_bits octets, fun _ _ hb _ hj => bits_getElem? hb hj⟩, fun pre rest octets => ?_⟩
  rw [stream, flags, flags, bits_flagOctet]

/-! ## Stuffing, by cases (R131) -/

@[simp] theorem stuffFrom_nil (ones : Nat) : stuffFrom ones [] = [] := rfl

@[simp] theorem stuffFrom_zero_bit (ones : Nat) (l : List Bool) :
    stuffFrom ones (false :: l) = false :: stuffFrom 0 l := rfl

theorem stuffFrom_fifth_one {ones : Nat} (h : ones + 1 = 5) (l : List Bool) :
    stuffFrom ones (true :: l) = true :: false :: stuffFrom 0 l := if_pos h

theorem stuffFrom_other_one {ones : Nat} (h : ¬ones + 1 = 5) (l : List Bool) :
    stuffFrom ones (true :: l) = true :: stuffFrom (ones + 1) l := if_neg h

/-- One round of the loop of R131: the bits emitted so far and the count of 1s. -/
def stuffRound (st : List Bool × Nat) (b : Bool) : List Bool × Nat :=
  if b then (if st.2 + 1 = 5 then (st.1 ++ [b] ++ [false], 0) else (st.1 ++ [b], st.2 + 1)) else (st.1 ++ [b], 0)

/-- From any count, the loop appends the stuffed bits to what it has emitted. -/
theorem foldl_stuffRound (l out : List Bool) (ones : Nat) :
    (l.foldl stuffRound (out, ones)).1 = out ++ stuffFrom ones l := by
  induction ones, l using stuffFrom.induct generalizing out with
  | case1 ones => simp
  | case2 ones rest ih => simp [stuffRound, ih]
  | case3 ones rest h ih => simp [stuffRound, h, stuffFrom_fifth_one h, ih]
  | case4 ones rest h ih => simp [stuffRound, h, stuffFrom_other_one h, ih]

/-- Settles O33: the loop starts with nothing emitted and a count of 0. -/
theorem stuffingIsTheLoopOfTheRule : Obligations.StuffingIsTheLoopOfTheRule :=
  fun l => (foldl_stuffRound l [] 0).symm

/-! ## Unstuffing (R136) -/

/-- The receiver's count of 1s is the sender's, but that it stands at 5 when the inserted 0 arrives. -/
theorem unstuffFrom_stuffFrom {ones : Nat} (hones : ones < 5) (l : List Bool) :
    unstuffFrom ones (stuffFrom ones l) = l := by
  induction ones, l using stuffFrom.induct with
  | case1 ones => rfl
  | case2 ones rest ih => simp [unstuffFrom, hones.ne, ih]
  | case3 ones rest h ih => simp [stuffFrom_fifth_one h, unstuffFrom, hones.ne, h, ih]
  | case4 ones rest h ih => simp [stuffFrom_other_one h, unstuffFrom, hones.ne, ih (lt_of_le_of_ne hones h)]

/-- Settles O34: both counts start at 0. -/
theorem unstuffingInvertsStuffing : Obligations.UnstuffingInvertsStuffing :=
  unstuffFrom_stuffFrom (by decide)

/-! ## The length (R138) -/

theorem length_le_length_stuffFrom (ones : Nat) (l : List Bool) : l.length ≤ (stuffFrom ones l).length := by
  induction ones, l using stuffFrom.induct with
  | case1 ones => simp
  | case2 ones rest ih => simpa using ih
  | case3 ones rest h ih => rw [stuffFrom_fifth_one h]; exact (Nat.succ_le_succ ih).trans (Nat.le_succ _)
  | case4 ones rest h ih => simpa [stuffFrom_other_one h] using ih

/-- Six bits are emitted for five; the 1s counted before the list weigh in as emitted already. -/
theorem five_mul_length_stuffFrom_le (ones : Nat) (l : List Bool) :
    5 * (stuffFrom ones l).length ≤ 6 * l.length + ones := by
  induction ones, l using stuffFrom.induct with
  | case1 ones => exact Nat.zero_le _
  | case2 ones rest ih => simp only [stuffFrom_zero_bit, List.length_cons]; omega
  | case3 ones rest h ih => simp only [stuffFrom_fifth_one h, List.length_cons]; omega
  | case4 ones rest h ih => simp only [stuffFrom_other_one h, List.length_cons]; omega

theorem length_stuff_le (l : List Bool) : (stuff l).length ≤ l.length + l.length / 5 := by
  have hbound : 5 * (stuff l).length ≤ 6 * l.length + 0 := five_mul_length_stuffFrom_le 0 l
  omega

theorem length_stuffFrom_replicate_true {ones : Nat} (hones : ones < 5) (n : Nat) :
    (stuffFrom ones (List.replicate n true)).length = n + (n + ones) / 5 := by
  induction n generalizing ones with
  | zero => simp [Nat.div_eq_of_lt hones]
  | succ n ih =>
    rw [List.replicate_succ, Nat.add_right_comm n 1 ones, Nat.add_assoc n ones 1]
    by_cases h : ones + 1 = 5
    · rw [stuffFrom_fifth_one h, h, Nat.add_div_right n (by decide), List.length_cons, List.length_cons, ih (by decide)]
      exact congrArg (· + 1) (Nat.add_right_comm n (n / 5) 1)
    · rw [stuffFrom_other_one h, List.length_cons, ih (lt_of_le_of_ne hones h), Nat.add_right_comm]

/-- The 1s counted before the list belong to its first run. -/
theorem stuffFrom_eq_self {ones : Nat} {l : List Bool}
    (hrun : ¬List.replicate 5 true <:+: List.replicate ones true ++ l) : stuffFrom ones l = l := by
  have hshift (ones : Nat) (rest : List Bool) :
      List.replicate ones true ++ true :: rest = List.replicate (ones + 1) true ++ rest := by
    rw [List.append_cons, List.replicate_succ']
  induction ones, l using stuffFrom.induct with
  | case1 ones => rfl
  | case2 ones rest ih =>
    have hrest : List.replicate 0 true ++ rest <:+ List.replicate ones true ++ false :: rest :=
      (List.suffix_cons false rest).trans (List.suffix_append ..)
    rw [stuffFrom_zero_bit, ih fun hin => hrun (hin.trans hrest.isInfix)]
  | case3 ones rest h ih =>
    rw [hshift, h] at hrun
    exact absurd (List.prefix_append ..).isInfix hrun
  | case4 ones rest h ih =>
    rw [hshift] at hrun
    rw [stuffFrom_other_one h, ih hrun]

/-- Settles O35: the count before the list is 0. -/
theorem stuffingAddsAtMostAFifth : Obligations.StuffingAddsAtMostAFifth := by
  refine fun l => ⟨length_le_length_stuffFrom 0 l, length_stuff_le l, fun hrun => stuffFrom_eq_self ?_,
    length_stuffFrom_replicate_true (by decide)⟩
  rintro ⟨p, r, h⟩
  exact hrun p r h.symm

/-! ## Runs of 1s (R137) -/

/-- What follows a bit of a stuffed list is itself a stuffed list, from some count: an inserted 0 stands there as the 0 of
an unstuffed list would. -/
theorem stuffFrom_eq_cons {ones : Nat} (hones : ones < 5) {l : List Bool} {a : Bool} {t : List Bool}
    (h : stuffFrom ones l = a :: t) : ∃ ones' < 5, ∃ l', stuffFrom ones' l' = t := by
  match l with
  | [] => cases h
  | false :: rest => exact ⟨0, by decide, rest, (List.cons.inj h).2⟩
  | true :: rest =>
    by_cases h5 : ones + 1 = 5
    · rw [stuffFrom_fifth_one h5] at h
      exact ⟨0, by decide, false :: rest, (List.cons.inj h).2⟩
    · rw [stuffFrom_other_one h5] at h
      exact ⟨ones + 1, lt_of_le_of_ne hones h5, rest, (List.cons.inj h).2⟩

/-- Where stuffed bits, and after them what does not start with a 1, start with `n` 1s, these and the 1s counted before
are at most five, and a 0 follows the fifth. -/
theorem count_of_stuffFrom_append_eq {ones n : Nat} {l m r : List Bool} (hones : ones < 5) (hm : m.head? ≠ some true)
    (h : stuffFrom ones l ++ m = List.replicate n true ++ r) :
    ones + n < 5 ∨ ones + n = 5 ∧ ∃ r', r = false :: r' := by
  induction ones, l using stuffFrom.induct generalizing n with
  | case1 ones =>
    cases n with
    | zero => exact .inl hones
    | succ n => exact absurd (congrArg List.head? h) hm
  | case2 ones rest ih =>
    cases n with
    | zero => exact .inl hones
    | succ n => cases h
  | case3 ones rest h5 ih =>
    rw [stuffFrom_fifth_one h5] at h
    match n with
    | 0 => exact .inl hones
    | 1 => exact .inr ⟨h5, _, (List.cons.inj h).2.symm⟩
    | n + 2 => cases h
  | case4 ones rest h5 ih =>
    rw [stuffFrom_other_one h5] at h
    cases n with
    | zero => exact .inl hones
    | succ n =>
      rw [Nat.add_comm n 1, ← Nat.add_assoc]
      exact ih (lt_of_le_of_ne hones h5) (List.cons.inj h).2

/-- Five 1s anywhere in stuffed bits are followed by a 0. -/
theorem eq_cons_false_of_stuffFrom_eq {ones : Nat} (hones : ones < 5) {l p r : List Bool}
    (h : stuffFrom ones l = p ++ List.replicate 5 true ++ r) : ∃ r', r = false :: r' := by
  induction p generalizing ones l with
  | nil =>
    have hcount := count_of_stuffFrom_append_eq (m := []) hones (by decide) ((List.append_nil _).trans h)
    rcases hcount with hlt | ⟨-, hzero⟩
    · omega
    · exact hzero
  | cons a p ih =>
    obtain ⟨ones', hones', l', hl'⟩ := stuffFrom_eq_cons hones h
    exact ih hones' hl'

/-! ## Where six 1s start (R137) -/

/-- The test that the statement makes at each place of a stream. -/
def startsWithSixOnes (l : List Bool) : Bool := l.take 6 == List.replicate 6 true

/-- At how many places of a list six 1s start. -/
def sixOnesCount (l : List Bool) : Nat := ((List.range l.length).filter fun i => startsWithSixOnes (l.drop i)).length

theorem sixOnesCount_cons (b : Bool) (l : List Bool) :
    sixOnesCount (b :: l) = sixOnesCount l + (startsWithSixOnes (b :: l)).toNat := by
  rw [sixOnesCount, List.length_cons, List.range_succ_eq_map, List.filter_cons, List.filter_map, List.drop_zero]
  cases startsWithSixOnes (b :: l) <;> simp [sixOnesCount, Function.comp_def]

/-- A flag holds six 1s once, whatever follows it. -/
theorem sixOnesCount_flag_append (l : List Bool) : sixOnesCount (bits [flagOctet] ++ l) = sixOnesCount l + 1 := by
  rw [bits_flagOctet]
  simp [sixOnesCount_cons, startsWithSixOnes]

theorem flags_succ (n : Nat) : flags (n + 1) = bits [flagOctet] ++ flags n := rfl

theorem sixOnesCount_flags_append (n : Nat) (l : List Bool) : sixOnesCount (flags n ++ l) = n + sixOnesCount l := by
  induction n with
  | zero => rw [Nat.zero_add]; rfl
  | succ n ih => rw [flags_succ, List.append_assoc, sixOnesCount_flag_append, ih, Nat.add_right_comm]

theorem head?_flags_ne_true (n : Nat) : (flags n).head? ≠ some true := by
  cases n with
  | zero => decide
  | succ n => rw [flags_succ, bits_flagOctet]; simp

theorem startsWithSixOnes_stuffFrom_append {ones : Nat} (hones : ones < 5) (l : List Bool) {m : List Bool}
    (hm : m.head? ≠ some true) : startsWithSixOnes (stuffFrom ones l ++ m) = false := by
  by_contra hsix
  have htake : (stuffFrom ones l ++ m).take 6 = List.replicate 6 true := by simpa [startsWithSixOnes] using hsix
  have hcount := count_of_stuffFrom_append_eq hones hm (htake ▸ (List.take_append_drop 6 _).symm)
  omega

/-- Stuffed bits add no six 1s to what follows them. -/
theorem sixOnesCount_stuffFrom_append {ones : Nat} (hones : ones < 5) (l : List Bool) {m : List Bool}
    (hm : m.head? ≠ some true) : sixOnesCount (stuffFrom ones l ++ m) = sixOnesCount m := by
  generalize ht : stuffFrom ones l = t
  induction t generalizing ones l with
  | nil => rfl
  | cons a t ih =>
    obtain ⟨ones', hones', l', hl'⟩ := stuffFrom_eq_cons hones ht
    have hsix : startsWithSixOnes (a :: (t ++ m)) = false := by
      simpa [ht] using startsWithSixOnes_stuffFrom_append hones l hm
    rw [List.cons_append, sixOnesCount_cons, hsix, ih hones' l' hl']
    rfl

/-- The places of a stream where six 1s start are as many as its flags. -/
theorem sixOnesCount_stream (pre rest : Nat) (octets : List Byte) :
    sixOnesCount (stream pre octets rest) = pre + rest := by
  have hrest : sixOnesCount (flags rest) = rest := by
    simpa [sixOnesCount] using sixOnesCount_flags_append rest []
  rw [stream, List.append_assoc, sixOnesCount_flags_append, stuff,
    sixOnesCount_stuffFrom_append (by decide) _ (head?_flags_ne_true rest), hrest]

/-- Settles O36: no run goes past five 1s in the data, and every flag adds one place. -/
theorem sixOnesStandInFlagsOnly : Obligations.SixOnesStandInFlagsOnly :=
  ⟨fun _ _ _ h => eq_cons_false_of_stuffFrom_eq (by decide) h, sixOnesCount_stream⟩

end Sys2Proof.Machine
end

section
/-! SUPPORT. The statements about the tone (45_afsk.md): the sample as the rounded and clamped real sine (R152, R154, R155)
and what follows at named phases (R161), then the lengths of symbols and of a transmission (R157, R159). -/

namespace Sys2Proof.Machine

open Real

-- One proof after another: proofs that run side by side each take memory of their own, and the check's limit is near.
set_option Elab.async false

/-! ## Rounding and clamping (R154, R155) -/

/-- Rounding to the nearest integer with ties away from zero, as the statement about the sample writes it. -/
noncomputable def roundAway (x : ℝ) : ℤ := if 0 ≤ x then ⌊x + 1 / 2⌋ else -⌊-x + 1 / 2⌋

theorem roundAway_of_nonneg {x : ℝ} (h : 0 ≤ x) : roundAway x = ⌊x + 1 / 2⌋ := if_pos h

theorem roundAway_zero : roundAway 0 = 0 := by
  rw [roundAway_of_nonneg le_rfl]
  norm_num

theorem roundAway_neg (x : ℝ) : roundAway (-x) = -roundAway x := by
  rcases lt_trichotomy x 0 with h | rfl | h
  · rw [roundAway, if_pos (by linarith), roundAway, if_neg (by linarith), neg_neg]
  · rw [neg_zero, roundAway_zero, neg_zero]
  · rw [roundAway, if_neg (by linarith), roundAway, if_pos h.le, neg_neg]

theorem roundAway_natCast (n : Nat) : roundAway n = n := by
  rw [roundAway_of_nonneg n.cast_nonneg, Int.floor_natCast_add]
  norm_num

/-- Half of an odd number is a tie. -/
theorem roundAway_half (n : Nat) : roundAway (n * (1 / 2)) = (n + 1 : ℤ) / 2 := by
  have hsum : (n : ℝ) * (1 / 2) + 1 / 2 = ((n + 1 : ℤ) : ℝ) / ((2 : ℤ) : ℝ) := by push_cast; ring
  rw [roundAway_of_nonneg (by positivity), hsum, Int.floor_div_cast_of_nonneg (by decide), Int.floor_intCast]

/-- Rounding does not pass an integer bound. -/
theorem abs_roundAway_le {x : ℝ} {n : Nat} (h : |x| ≤ n) : |roundAway x| ≤ n := by
  wlog hx : 0 ≤ x generalizing x
  · rw [← abs_neg, ← roundAway_neg]
    exact this ((abs_neg x).trans_le h) (by linarith)
  have hle : ⌊x + 1 / 2⌋ < (n : ℤ) + 1 := Int.floor_lt.2 (by push_cast; linarith [le_abs_self x])
  have hnonneg : 0 ≤ ⌊x + 1 / 2⌋ := Int.floor_nonneg.2 (by linarith)
  rw [roundAway_of_nonneg hx, abs_le]
  omega

/-- A 16-bit register holds every clamped value. -/
theorem toInt_ofInt_clamp16 (n : ℤ) : (BitVec.ofInt 16 (clamp16 n)).toInt = clamp16 n := by
  have hlo : -32768 ≤ clamp16 n := le_max_left ..
  have hhi : clamp16 n ≤ 32767 := max_le (by decide) (min_le_left ..)
  rw [BitVec.toInt_ofInt]
  exact Int.bmod_eq_of_le (by norm_num; omega) (by norm_num; omega)

theorem clamp16_eq_self {n : ℤ} (hlo : -32768 ≤ n) (hhi : n ≤ 32767) : clamp16 n = n := by
  rw [clamp16, min_eq_right hhi, max_eq_right hlo]

/-- A result inside the bounds was not clipped. -/
theorem clamp16_eq_self_of_lt {n : ℤ} (hlo : -32768 < clamp16 n) (hhi : clamp16 n < 32767) : clamp16 n = n := by
  unfold clamp16 at *; omega

theorem clamp16_of_nonneg {n : ℤ} (h : 0 ≤ n) : clamp16 n = min n 32767 := by
  rw [clamp16, max_eq_right (le_min (by decide) (h.trans' (by decide))), min_comm]

theorem clamp16_neg_of_nonneg {n : ℤ} (h : 0 ≤ n) : clamp16 (-n) = -min n 32768 := by
  rw [clamp16, min_eq_right (by omega), max_neg_neg, min_comm]

/-- Clamping is odd on the largest range that is symmetric. -/
theorem clamp16_neg {n : ℤ} (hlo : -32767 ≤ n) (hhi : n ≤ 32767) : clamp16 (-n) = -clamp16 n := by
  rw [clamp16_eq_self (by omega) (by omega), clamp16_eq_self (by omega) hhi]

theorem abs_clamp16_le (n : ℤ) : |clamp16 n| ≤ min |n| 32768 := by
  rcases le_total 0 n with h | h
  · rw [clamp16_of_nonneg h, abs_of_nonneg h, abs_of_nonneg (le_min h (by decide))]
    exact min_le_min_left n (by decide)
  · have hneg : 0 ≤ -n := neg_nonneg.2 h
    rw [← neg_neg n, clamp16_neg_of_nonneg hneg, abs_neg, abs_neg, abs_of_nonneg hneg,
      abs_of_nonneg (le_min hneg (by decide))]

/-! ## The sample is the clamped rounded sine (R152) -/

/-- `A * sin(2 pi p)` rounded, before it is clamped. -/
noncomputable def roundedSine (A : Half) (p : ℚ) : ℤ := roundAway (A.toNat * sin (2 * π * p))

/-- Whole turns leave the sine as it is. -/
theorem sin_turns_frac (p : ℚ) : sin (2 * π * (frac p : ℚ)) = sin (2 * π * p) := by
  have hturns : 2 * π * ((frac p : ℚ) : ℝ) = 2 * π * p - p.floor * (2 * π) := by
    rw [frac]; push_cast; ring
  rw [hturns, sin_sub_int_mul_two_pi]

theorem sin_turns_one_sub (p : ℚ) : sin (2 * π * ((1 - p : ℚ) : ℝ)) = -sin (2 * π * p) := by
  rw [← sin_two_pi_sub]
  congr 1
  push_cast; ring

theorem sin_turns_half_sub (p : ℚ) : sin (2 * π * ((1 / 2 - p : ℚ) : ℝ)) = sin (2 * π * p) := by
  rw [← sin_pi_sub]
  congr 1
  push_cast; ring

theorem frac_nonneg (p : ℚ) : 0 ≤ frac p := Int.fract_nonneg p

theorem frac_lt_one (p : ℚ) : frac p < 1 := Int.fract_lt_one p

/-- Folding the second quarter of a turn onto the first gives the sine of the half turn. -/
theorem magnitude_half_turn (A : Half) {h : ℚ} (h0 : 0 ≤ h) (h1 : h ≤ 1 / 2) :
    (magnitude A.toNat (if h ≤ 1 / 4 then h else 1 / 2 - h) : ℤ) = roundedSine A h := by
  have hlo : 0 ≤ (h : ℝ) := Rat.cast_nonneg.2 h0
  have hhi : (h : ℝ) ≤ 1 / 2 := by simpa using (Rat.cast_le (K := ℝ)).2 h1
  have hsin : 0 ≤ sin (2 * π * h) := sin_nonneg_of_nonneg_of_le_pi (by positivity) (by linarith [mul_le_mul_of_nonneg_left hhi two_pi_pos.le])
  rw [roundedSine, roundAway_of_nonneg (by positivity)]
  split_ifs with hq
  · exact magnitude_eq_floor A.isLt h0 hq
  · rw [magnitude_eq_floor A.isLt (by linarith) (by linarith), sin_turns_half_sub]

theorem roundedSine_one_sub (A : Half) (p : ℚ) : roundedSine A (1 - p) = -roundedSine A p := by
  rw [roundedSine, sin_turns_one_sub, mul_neg, roundAway_neg, roundedSine]

theorem roundedSine_half_sub (A : Half) (p : ℚ) : roundedSine A (1 / 2 - p) = roundedSine A p := by
  rw [roundedSine, sin_turns_half_sub, roundedSine]

theorem roundedSine_frac (A : Half) (p : ℚ) : roundedSine A (frac p) = roundedSine A p := by
  rw [roundedSine, sin_turns_frac, roundedSine]

theorem sampleInt_eq (A : Half) (p : ℚ) : sampleInt A.toNat p = clamp16 (roundedSine A p) := by
  have h0 := frac_nonneg p
  have h1 := frac_lt_one p
  rw [← roundedSine_frac, sampleInt]
  by_cases hp : frac p ≤ 1 / 2
  · simp only [if_pos hp]
    rw [magnitude_half_turn A h0 hp]
  · simp only [if_neg hp]
    rw [magnitude_half_turn A (by linarith) (by linarith), roundedSine_one_sub, neg_neg]

theorem toInt_sample (A : Half) (p : ℚ) : (sample A p).toInt = clamp16 (roundedSine A p) := by
  rw [sample, sampleInt_eq, toInt_ofInt_clamp16]

/-- Settles O39: the magnitude of the first quarter of a turn, carried to every phase by the symmetries of the sine. -/
theorem theSampleIsTheRoundedClampedSine : Obligations.TheSampleIsTheRoundedClampedSine := toInt_sample

/-! ## Named phases, symmetries and the bound (R161) -/

theorem roundedSine_zero (A : Half) : roundedSine A 0 = 0 := by
  rw [roundedSine, Rat.cast_zero, mul_zero, sin_zero, mul_zero, roundAway_zero]

theorem roundedSine_quarter (A : Half) : roundedSine A (1 / 4) = A.toNat := by
  have hangle : 2 * π * ((1 / 4 : ℚ) : ℝ) = π / 2 := by push_cast; ring
  rw [roundedSine, hangle, sin_pi_div_two, mul_one, roundAway_natCast]

theorem roundedSine_twelfth (A : Half) : roundedSine A (1 / 12) = (A.toNat + 1 : ℤ) / 2 := by
  have hangle : 2 * π * ((1 / 12 : ℚ) : ℝ) = π / 6 := by push_cast; ring
  rw [roundedSine, hangle, sin_pi_div_six, roundAway_half]

theorem abs_roundedSine_le (A : Half) (p : ℚ) : |roundedSine A p| ≤ A.toNat := by
  refine abs_roundAway_le ?_
  rw [abs_mul, Nat.abs_cast]
  exact mul_le_of_le_one_right A.toNat.cast_nonneg (abs_sin_le_one _)

theorem toInt_sample_one_sub (A : Half) (p : ℚ) : (sample A (1 - p)).toInt = clamp16 (-roundedSine A p) := by
  rw [toInt_sample, roundedSine_one_sub]

theorem sample_half_sub (A : Half) (p : ℚ) : sample A (1 / 2 - p) = sample A p := by
  rw [← BitVec.toInt_inj, toInt_sample, toInt_sample, roundedSine_half_sub]

/-- Settles O40: the values at 0, 1/4 and 1/12 give the others by the two symmetries, and clamping is odd where it leaves
the value as it is. -/
theorem theSampleHasTheNamedProperties : Obligations.TheSampleHasTheNamedProperties := by
  intro A p
  have hA : A.toNat < 65536 := A.isLt
  have hbound := abs_le.1 (abs_roundedSine_le A p)
  have hzero : (sample A 0).toInt = 0 := by rw [toInt_sample, roundedSine_zero]; rfl
  have htwelfth : (sample A (1 / 12)).toInt = min ((A.toNat + 1 : ℤ) / 2) 32767 := by
    rw [toInt_sample, roundedSine_twelfth, clamp16_of_nonneg (by omega)]
  refine ⟨hzero, ?_, ?_, ?_, htwelfth, ?_, ?_, ?_, fun hclip => ?_, fun hlo hhi => ?_, sample_half_sub A p, ?_⟩
  · rw [← sub_zero (1 / 2 : ℚ), sample_half_sub, hzero]
  · rw [toInt_sample, roundedSine_quarter, clamp16_of_nonneg (by omega)]
  · rw [show (3 / 4 : ℚ) = 1 - 1 / 4 by norm_num, toInt_sample_one_sub, roundedSine_quarter,
      clamp16_neg_of_nonneg (by omega)]
  · rw [show (5 / 12 : ℚ) = 1 / 2 - 1 / 12 by norm_num, sample_half_sub, htwelfth]
  · rw [show (7 / 12 : ℚ) = 1 - (1 / 2 - 1 / 12) by norm_num, toInt_sample_one_sub, roundedSine_half_sub,
      roundedSine_twelfth, clamp16_neg_of_nonneg (by omega), min_eq_left (by omega)]
  · rw [show (11 / 12 : ℚ) = 1 - 1 / 12 by norm_num, toInt_sample_one_sub, roundedSine_twelfth,
      clamp16_neg_of_nonneg (by omega), min_eq_left (by omega)]
  · rw [toInt_sample_one_sub, toInt_sample, clamp16_neg (by omega) (by omega)]
  · rw [toInt_sample] at hlo hhi
    have hself := clamp16_eq_self_of_lt (n := roundedSine A p) (by omega) (by omega)
    rw [toInt_sample_one_sub, toInt_sample, clamp16_neg (by omega) (by omega)]
  · rw [toInt_sample]
    exact (abs_clamp16_le _).trans (min_le_min_right _ (abs_roundedSine_le A p))

/-! ## Lengths (R157, R159) -/

/-- Dividing what a symbol carries on gives what is left of the whole quotient. -/
theorem symbolLength_add_carry_div {B : Nat} (hB : 0 < B) (tacc S n : Nat) :
    (symbolLength tacc S B).1 + ((symbolLength tacc S B).2 + n) / B = (tacc + S + n) / B := by
  rw [symbolLength, ← Nat.mul_add_div hB, ← Nat.add_assoc, Nat.div_add_mod]

theorem symbolLength_carry_lt {B : Nat} (hB : 0 < B) (tacc S : Nat) : (symbolLength tacc S B).2 < B := Nat.mod_lt _ hB

theorem length_symbolLengths (S B M tacc : Nat) : (symbolLengths S B M tacc).length = M := by
  induction M generalizing tacc with
  | zero => rfl
  | succ M ih => rw [symbolLengths, List.length_cons, ih]

theorem sum_symbolLengths {S B tacc : Nat} (htacc : tacc < B) (M : Nat) :
    (symbolLengths S B M tacc).sum = (tacc + M * S) / B := by
  have hB : 0 < B := Nat.zero_lt_of_lt htacc
  induction M generalizing tacc with
  | zero => rw [Nat.zero_mul, Nat.add_zero, Nat.div_eq_of_lt htacc]; rfl
  | succ M ih =>
    rw [symbolLengths, List.sum_cons, ih (symbolLength_carry_lt hB tacc S), symbolLength_add_carry_div hB]
    congr 1
    ring

theorem getElem?_symbolLengths {S B tacc : Nat} (htacc : tacc < B) {m M : Nat} (hm : m < M) :
    (symbolLengths S B M tacc)[m]? = some ((tacc + (m + 1) * S) / B - (tacc + m * S) / B) := by
  have hB : 0 < B := Nat.zero_lt_of_lt htacc
  induction M generalizing m tacc with
  | zero => omega
  | succ M ih =>
    cases m with
    | zero => simp [symbolLengths, symbolLength, Nat.div_eq_of_lt htacc]
    | succ m =>
      have hshift (n : Nat) : tacc + (n + 1) * S = tacc + S + n * S := by ring
      rw [symbolLengths, List.getElem?_cons_succ, ih (symbolLength_carry_lt hB tacc S) (Nat.lt_of_succ_lt_succ hm),
        hshift, hshift, ← symbolLength_add_carry_div hB, ← symbolLength_add_carry_div hB, Nat.add_sub_add_left]

/-- Two quotients that lie `S` apart differ by the quotient of `S`, or by one more where the remainders carry. -/
theorem add_div_sub_div {B : Nat} (hB : 0 < B) (a S : Nat) :
    (a + S) / B - a / B = S / B + if B ≤ a % B + S % B then 1 else 0 := by
  rw [Nat.add_div hB, Nat.add_assoc, Nat.add_sub_cancel_left]

/-- Settles O41: the carry is the remainder of the samples before, by induction on the symbols. -/
theorem symbolLengthsCarryTheRemainder : Obligations.SymbolLengthsCarryTheRemainder := by
  intro S B M hB
  refine ⟨length_symbolLengths S B M 0, ?_, fun m hm => ⟨(m + 1) * S / B - m * S / B, ?_, rfl, ?_⟩,
    fun tacc => symbolLength_carry_lt hB tacc S⟩
  · rw [sum_symbolLengths hB, Nat.zero_add]
  · rw [getElem?_symbolLengths hB hm, Nat.zero_add, Nat.zero_add]
  · rw [Nat.add_one_mul, add_div_sub_div hB]
    split_ifs with hcarry
    · refine ⟨.inr rfl, fun hdvd => ?_⟩
      have hlt := Nat.mod_lt (m * S) hB
      omega
    · exact ⟨.inl rfl, fun _ => rfl⟩

theorem length_toneSamples (A : Half) (freq rate n : Nat) (p : ℚ) : (toneSamples A freq rate n p).1.length = n := by
  induction n generalizing p with
  | zero => rfl
  | succ n ih => rw [toneSamples, List.length_cons, ih]

/-- Each level gives one symbol, whatever its tone. -/
theorem length_synth (s : State) (levels : List Bool) (tacc : Nat) (p : ℚ) :
    (synth s levels tacc p).1.length = (symbolLengths s.sampleRate.toNat s.bitRate.toNat levels.length tacc).sum := by
  induction levels generalizing tacc p with
  | nil => rfl
  | cons level rest ih =>
    rw [synth, List.length_append, length_toneSamples, ih, List.length_cons, symbolLengths, List.sum_cons]

/-- Settles O42: the sum of the symbol lengths. -/
theorem aTransmissionHasTheStatedSampleCount : Obligations.ATransmissionHasTheStatedSampleCount := by
  intro s levels p hB
  have hpos : 0 < s.bitRate.toNat := Nat.pos_of_ne_zero (BitVec.toNat_ne_iff_ne.2 hB)
  rw [length_synth, sum_symbolLengths hpos, Nat.zero_add]

end Sys2Proof.Machine
end

section
/-! SUPPORT. The statements about the commands of the sequencer: MODRST, the acceptance and the refusal of TRANSMIT, host
writes while busy, and what the samples of a TRANSMIT depend on (R171 to R175). -/

namespace Sys2Proof.Machine

/-! ## MODRST and host writes while busy (R171, R172) -/

/-- Settles O43: the operation on the cleared status of an idle block sets `phase`, `level` and `DONE`. -/
theorem modrstReinitialisesTheModulator : Obligations.ModrstReinitialisesTheModulator :=
  fun _ hb => exec_idle hb .modrst

/-- A command that finds the block busy is dropped and recorded (R48). -/
theorem exec_busy {s : State} (hb : s.busy = true) (i : Instr) : exec i s = .next { s with overrun := true } := by
  rw [exec_eq, State.issue_busy s _ hb, State.markOverrun]

/-- Settles O16: neither kind of host write looks at its number or index before it is dropped, and no row is run. -/
theorem anyHostWriteWhileBusyIsAnOverrun : Obligations.AnyHostWriteWhileBusyIsAnOverrun := by
  refine ⟨fun s e rest hb hi hwrite => ?_, fun i s hb => exec_busy hb i⟩
  rcases hwrite with ⟨n, v, rfl⟩ | ⟨i, b, rfl⟩
  · exact step_of_regWrite_busy hb hi
  · exact step_of_pbufWrite_busy hb hi

/-! ## TRANSMIT: accepted or refused (R174, R175) -/

/-- A failed validation records an error. -/
theorem ne_none_of_validate {s : State} {e : ErrorCode} {n : BitVec 3} (h : validate s = some (e, n)) : e ≠ .none := by
  rcases validate_some h with ⟨rfl, -⟩ | ⟨rfl, -⟩ <;> decide

/-- A rate of 0 is recorded as BAD_CONFIG. -/
theorem badConfig_of_configCheck {s : State} {e : ErrorCode} {n : BitVec 3} (h : configCheck s = some (e, n)) :
    e = .badConfig ∧ ¬RatesOk s := by
  rcases configCheck_cases s with ⟨hr, hc⟩ | ⟨-, hr, hc⟩ | ⟨-, hc⟩ <;> cases h.symm.trans hc
  · exact ⟨rfl, fun hrates => hrates.1 hr⟩
  · exact ⟨rfl, fun hrates => hrates.2 hr⟩

/-- TRANSMIT is accepted exactly with a valid descriptor and rates; else it raises an error. -/
theorem transmitCommand_accepts_or_raises (s : State) :
    (DescriptorOk s ∧ RatesOk s ∧ transmitCommand s = startStream (assemble s)) ∨
    (¬(DescriptorOk s ∧ RatesOk s) ∧ ∃ e n, e ≠ .none ∧ transmitCommand s = s.raise e n) := by
  rcases transmitCommand_cases s with ⟨e, n, hv, ht⟩ | ⟨e, n, -, hc, ht⟩ | ⟨hv, hc, ht⟩
  · refine .inr ⟨fun ⟨hok, _⟩ => ?_, e, n, ne_none_of_validate hv, ht⟩
    cases hv.symm.trans ((validate_eq_none_iff s).2 hok)
  · obtain ⟨rfl, hrates⟩ := badConfig_of_configCheck hc
    exact .inr ⟨fun h => hrates h.2, _, n, by decide, ht⟩
  · exact .inl ⟨(validate_eq_none_iff s).1 hv, ratesOk_of_configCheck hc, ht⟩

/-- With a valid descriptor TRANSMIT raises what the check of the rates finds (R174). -/
theorem exec_transmit_of_configCheck_some {s : State} (hb : s.busy = false) (hok : DescriptorOk s) {e : ErrorCode}
    {n : BitVec 3} (hc : configCheck s = some (e, n)) :
    exec .transmit s = .next { s with done := false, err := e, einfo := n, warnRate := false } := by
  have hvc : validate s.clearCommandStatus = none := (validate_eq_none_iff _).2 hok
  have hcc : configCheck s.clearCommandStatus = some (e, n) := hc
  have hop : operation .transmit s.clearCommandStatus = s.clearCommandStatus.raise e n := by
    rw [operation, transmitCommand, hvc, hcc]
  rw [exec_idle hb, hop, State.raise_clearCommandStatus hb]

/-- Settles O46: the check of the rates follows the validation, and BUILD has only the latter. -/
theorem zeroRatesAreRefused : Obligations.ZeroRatesAreRefused := by
  refine fun s hb hok => ⟨fun hsr => ?_, fun hsr hbr => ?_, fun hsr hbr => ?_, ?_⟩
  · exact exec_transmit_of_configCheck_some hb hok (by rw [configCheck, if_pos hsr])
  · exact exec_transmit_of_configCheck_some hb hok (by rw [configCheck, if_neg hsr, if_pos hbr])
  · obtain ⟨f, hf⟩ := transmitCommand_stream (s := s.clearCommandStatus) hok ⟨hsr, hbr⟩
    exact ⟨_, f, exec_idle hb .transmit, hf⟩
  · obtain ⟨m, n, hexec, -⟩ := exec_build_of_descriptorOk hb hok
    exact ⟨_, hexec, rfl⟩

/-- The in-flight items of a TRANSMIT accepted in `s`: the stream of its frame, at the start (R175, R27). -/
def State.accepted (s : State) : InFlight where
  T := stream s.preamble.toNat (frame s) s.rest.toNat
  k := 0
  j := 0
  tacc := 0
  freq := Config.freqBeforeFirstSymbol s.draws
  cbuf := []

/-- All that an accepted TRANSMIT does while idle: the outcome is the rate warning alone, the frame reads back from
`FBUF`, what was listed from its length on stays, `FLEN` is the length, and the stream of the frame starts. -/
theorem exec_transmit_of_valid {s : State} (hb : s.busy = false) (hok : DescriptorOk s) (hrates : RatesOk s) :
    ∃ m n, exec .transmit s = .next { s with
        seq := .stream s.accepted, done := false, err := .none, einfo := 0, warnRate := s.rateWarning,
        draws := s.draws + 1, fbuf := m, flen := n } ∧
      n.toNat = frameLength s ∧ State.octets { s with fbuf := m } .fbuf (frameLength s) = frame s ∧
      ∀ i, frameLength s ≤ i → m.read i = s.fbuf.read i := by
  have hok' : DescriptorOk s.clearCommandStatus := hok
  have hframe : frame s.clearCommandStatus = frame s := frame_congr rfl rfl fun _ _ => rfl
  have hread := assemble_octets hok'
  obtain ⟨m, n, heq, hlen, -, habove, -⟩ := assemble_spec hok'
  rw [heq, hframe] at hread
  refine ⟨m, n, ?_, hlen, hread, habove⟩
  have hT : State.octets { s.clearCommandStatus with fbuf := m, flen := n } .fbuf n.toNat = frame s := by
    rw [hlen]; exact hread
  rcases transmitCommand_accepts_or_raises s.clearCommandStatus with ⟨-, -, ht⟩ | ⟨hnot, -⟩
  · rw [exec_idle hb, operation, ht, heq]
    simp only [startStream, hT]
    rfl
  · exact absurd ⟨hok, hrates⟩ hnot

/-- An error leaves every register but `STATUS`, and every buffer (R205). -/
theorem sameRegs_raise (s : State) (e : ErrorCode) (n : BitVec 3) :
    SameRegs s (s.clearCommandStatus.raise e n) [.status] := by
  intro r hr
  cases r with
  | status => exact absurd (List.mem_singleton_self _) hr
  | _ => rfl

theorem sameBuf_raise (s : State) (e : ErrorCode) (n : BitVec 3) (sp : BufSpace) :
    SameBuf s (s.clearCommandStatus.raise e n) sp := fun _ => by cases sp <;> rfl

/-- Settles O47: acceptance starts the stream of the frame, which is read back from `FBUF`; a refusal raises an error on
the cleared status. -/
theorem transmitIsAccepted : Obligations.TransmitIsAccepted := by
  refine ⟨fun s hb hok hrates => ?_, fun s hb hnot => ?_⟩
  · obtain ⟨m, n, hexec, hlen, hoctets, habove⟩ := exec_transmit_of_valid hb hok hrates
    have hflen : (n.zeroExtend 64).toNat = frameLength s := (BitVec.toNat_setWidth_of_le (by decide)).trans hlen
    have hread : State.octets { s with fbuf := m } .fbuf (n.zeroExtend 64).toNat = frame s := by rw [hflen, hoctets]
    have hT := congrArg (stream s.preamble.toNat · s.rest.toNat) hread.symm
    refine ⟨_, s.accepted, hexec, rfl, hT, rfl, rfl, rfl, rfl, hread, hflen,
      fun i hi => State.octet_congr rfl (habove i hi), ⟨rfl, rfl, rfl, s.rateWarning_eq⟩, rfl, fun r hr => ?regs,
      fun _ => rfl, fun _ => rfl, ⟨rfl, rfl⟩, ⟨rfl, rfl, rfl, rfl, rfl, rfl⟩⟩
    cases r with
    | status | flen => simp at hr
    | _ => rfl
  · rcases transmitCommand_accepts_or_raises s.clearCommandStatus with ⟨hok, hrates, -⟩ | ⟨-, e, n, he, ht⟩
    · exact absurd ⟨hok, hrates⟩ hnot
    · exact ⟨_, (exec_idle hb .transmit).trans (congrArg _ ht), rfl, rfl, he, rfl, sameRegs_raise s e n,
        sameBuf_raise s e n, ⟨rfl, rfl⟩, ⟨rfl, rfl, rfl, rfl, rfl, rfl⟩⟩

/-! ## What the samples of a TRANSMIT depend on (R248) -/

/-- The line levels, from the level `l`, of the stream that a TRANSMIT makes of the frame, and the last of them (R133,
R141). -/
def State.lineLevels (s : State) (l : Bool) : List Bool × Bool :=
  nrzi (stream s.preamble.toNat (frame s) s.rest.toNat) l

/-- At the start of a stream all of it is to come: no symbol is started, so `freq` is not read (R27). -/
theorem remaining_at_start (s : State) {f : InFlight} (hk : f.k = 0) (hj : f.j = 0) (htacc : f.tacc = 0) :
    s.remaining f = synth s (nrzi f.T s.level).1 0 s.phase ∧ s.finalLevel f = (nrzi f.T s.level).2 := by
  simp [State.remaining, State.finalLevel, hk, hj, htacc, toneSamples]

/-- What an accepted TRANSMIT has to produce. -/
theorem remaining_of_transmit {s t : State} {f : InFlight} (hb : s.busy = false) (h : exec .transmit s = .next t)
    (hf : t.seq = .stream f) :
    t.remaining f = synth s (s.lineLevels s.level).1 0 s.phase ∧ t.finalLevel f = (s.lineLevels s.level).2 := by
  rcases transmitCommand_accepts_or_raises s.clearCommandStatus with ⟨hok, hrates, -⟩ | ⟨-, e, n, -, hraise⟩
  · obtain ⟨m, n, hexec, -⟩ := exec_transmit_of_valid hb hok hrates
    obtain rfl := Host.Outcome.next.inj (hexec.symm.trans h)
    obtain rfl := Seq.stream.inj hf
    obtain ⟨hrem, hlast⟩ := remaining_at_start _ (f := s.accepted) rfl rfl rfl
    exact ⟨hrem.trans (by apply synth_congr <;> rfl), hlast⟩
  · obtain rfl := Host.Outcome.next.inj ((exec_idle hb .transmit).symm.trans h)
    rw [operation, hraise] at hf
    cases hf

/-- After MODRST the transmission starts from phase 0 and level 1, whatever they were (R171). -/
theorem remaining_after_modrst {s a t : State} {f : InFlight} (hb : s.busy = false) (hm : exec .modrst s = .next a)
    (ht : exec .transmit a = .next t) (hf : t.seq = .stream f) :
    t.remaining f = synth s (s.lineLevels true).1 0 0 ∧ t.finalLevel f = (s.lineLevels true).2 := by
  have ha := Host.Outcome.next.inj ((modrstReinitialisesTheModulator s hb).symm.trans hm)
  have hba : a.busy = false := by rw [← ha]; exact hb
  obtain ⟨hrem, hlast⟩ := remaining_of_transmit hba ht hf
  have hframe : frame a = frame s := by rw [← ha]; exact frame_congr rfl rfl fun _ _ => rfl
  rw [hrem, hlast, State.lineLevels, hframe, ← ha]
  exact ⟨by apply synth_congr <;> rfl, rfl⟩

/-- The word of an address register determines its fields. -/
theorem AddrReg.toWord_inj {a b : AddrReg} (h : a.toWord = b.toWord) : a = b := by
  have hcall (c : AddrReg) : c.toWord.extractLsb' 0 48 = c.call := BitVec.extractLsb'_append_eq_right
  have hh : a.h = b.h := by rw [← a.toWord_h, h, b.toWord_h]
  have hssid : a.ssid = b.ssid := by rw [← a.toWord_ssid, h, b.toWord_ssid]
  have hclen : a.clen = b.clen := by rw [← a.toWord_clen, h, b.toWord_clen]
  have hcall' : a.call = b.call := by rw [← hcall a, h, hcall b]
  cases a
  cases b
  exact (AddrReg.mk.injEq ..).mpr ⟨hcall', hclen, hssid, hh⟩

/-- A register no wider than the read is determined by what it reads as. -/
theorem zeroExtend_inj {w : Nat} (hw : w ≤ 64) {x y : BitVec w} (h : x.zeroExtend 64 = y.zeroExtend 64) : x = y := by
  refine BitVec.eq_of_toNat_eq ?_
  rw [← BitVec.toNat_setWidth_of_le hw (b := x), ← BitVec.toNat_setWidth_of_le hw (b := y)]
  exact congrArg BitVec.toNat h

/-- Two states whose descriptors read alike have one address field: `H` of the first two entries is not read. -/
theorem addressField_congr {s t : State} (hnpath : t.npath = s.npath)
    (hdst : t.addrDst.withoutH = s.addrDst.withoutH) (hsrc : t.addrSrc.withoutH = s.addrSrc.withoutH)
    (hpath1 : t.addrPath1 = s.addrPath1) (hpath2 : t.addrPath2 = s.addrPath2) : addressField t = addressField s := by
  have hnoH {a b : AddrReg} (h : a.withoutH = b.withoutH) (l : BitVec 1) :
      addrOctets a false l = addrOctets b false l := by
    change addrOctets a.withoutH false l = addrOctets b.withoutH false l
    rw [h]
  simp only [addressField, hnpath, hpath1, hpath2, hnoH hdst, hnoH hsrc]

/-- Settles O60: what is to come is synthesized from the frame and the configuration, which the registers and the payload
determine, and from the modulator state, which MODRST sets. -/
theorem afterModrstTheSamplesDependOnTheInputsAlone : Obligations.AfterModrstTheSamplesDependOnTheInputsAlone := by
  intro s₁ s₂ a₁ a₂ t₁ t₂ f₁ f₂ hb₁ hb₂ hregs hpay hm₁ hm₂ ht₁ ht₂ hf₁ hf₂
  have hrate : s₂.sampleRate = s₁.sampleRate := zeroExtend_inj (by decide) (hregs .cfgSampleRate (by decide))
  have hbitRate : s₂.bitRate = s₁.bitRate := zeroExtend_inj (by decide) (hregs .cfgBitRate (by decide))
  have hmark : s₂.mark = s₁.mark := zeroExtend_inj (by decide) (hregs .cfgMark (by decide))
  have hspace : s₂.space = s₁.space := zeroExtend_inj (by decide) (hregs .cfgSpace (by decide))
  have hampl : s₂.ampl = s₁.ampl := zeroExtend_inj (by decide) (hregs .cfgAmpl (by decide))
  have hpreamble : s₂.preamble = s₁.preamble := zeroExtend_inj (by decide) (hregs .cfgPreamble (by decide))
  have hrest : s₂.rest = s₁.rest := zeroExtend_inj (by decide) (hregs .cfgRest (by decide))
  have hnpath : s₂.npath = s₁.npath := zeroExtend_inj (by decide) (hregs .npath (by decide))
  have hplen : s₂.plen = s₁.plen := zeroExtend_inj (by decide) (hregs .plen (by decide))
  have haddr : addressField s₂ = addressField s₁ :=
    addressField_congr hnpath (AddrReg.toWord_inj (hregs .addrDst (by decide)))
      (AddrReg.toWord_inj (hregs .addrSrc (by decide))) (AddrReg.toWord_inj (hregs .addrPath1 (by decide)))
      (AddrReg.toWord_inj (hregs .addrPath2 (by decide)))
  have hlevels : s₂.lineLevels true = s₁.lineLevels true := by
    rw [State.lineLevels, State.lineLevels, hpreamble, hrest, frame_congr haddr hplen hpay]
  obtain ⟨hrem₁, hlast₁⟩ := remaining_after_modrst hb₁ hm₁ ht₁ hf₁
  obtain ⟨hrem₂, hlast₂⟩ := remaining_after_modrst hb₂ hm₂ ht₂ hf₂
  rw [hrem₁, hrem₂, hlast₁, hlast₂, hlevels]
  exact ⟨(synth_congr hrate hbitRate hmark hspace hampl _ _ _).symm, rfl⟩

end Sys2Proof.Machine
end

section
/-! SUPPORT. The statements about a running transmission: what each of its steps answers (R176 to R182), which transitions
there are (R172), what is delivered (R170, R180), and that it ends (R246). -/

namespace Sys2Proof.Machine

/-! ## The step that is enabled (R176 to R182) -/

section
variable {s : State} {f : InFlight} (hs : s.seq = .stream f)
include hs

theorem blockStep_of_sample (hroom : f.cbuf.length ≠ s.chunkMax) (hj : 0 < f.j) : blockStep s = sampleStep s f := by
  simp [blockStep, hs, hroom, hj]

theorem blockStep_of_bit {b : Bool} (hroom : f.cbuf.length ≠ s.chunkMax) (hj : f.j = 0) (hT : f.T[f.k]? = some b) :
    blockStep s = symbolStart s f b := by
  simp [blockStep, hs, hroom, hj, hT]

theorem blockStep_of_end (hc : f.cbuf = []) (hj : f.j = 0) (hT : f.T.length ≤ f.k) : blockStep s = complete s := by
  simp [blockStep, hs, hc, hj, List.getElem?_eq_none hT, State.chunkMax]

/-- The block's own step, with the two lines of R176 that offer a chunk put together. -/
theorem blockStep_cases_of_running :
    (Offers s f ∧ blockStep s = flush s f) ∨
    (f.cbuf.length ≠ s.chunkMax ∧ 0 < f.j ∧ blockStep s = sampleStep s f) ∨
    (f.j = 0 ∧ ∃ b, f.T[f.k]? = some b ∧ blockStep s = symbolStart s f b) ∨
    (f.cbuf = [] ∧ f.j = 0 ∧ f.T[f.k]? = none ∧ blockStep s = complete s) := by
  rcases blockStep_cases hs with ⟨hfull, h⟩ | h | ⟨-, hj, h⟩ | ⟨-, hj, hT, hne, h⟩ | h
  · exact .inl ⟨.inl hfull, h⟩
  · exact .inr (.inl h)
  · exact .inr (.inr (.inl ⟨hj, h⟩))
  · exact .inl ⟨.inr ⟨hj, List.getElem?_eq_none_iff.1 hT, hne⟩, h⟩
  · exact .inr (.inr (.inr h))

end

/-! ### A flush, by the sink's answer (R181, R182) -/

section
variable {s : State} (f : InFlight) {answers : List SinkAnswer}

theorem flush_of_no_answer (h : s.sinkAnswers = []) : flush s f = s := by
  simp [flush, h]

theorem flush_of_ok (h : s.sinkAnswers = .ok :: answers) : flush s f = { s with
    sinkAnswers := answers, sinkLog := s.sinkLog ++ [(f.cbuf, .ok)], seq := .stream { f with cbuf := [] } } := by
  simp [flush, h]

theorem flush_of_fail (h : s.sinkAnswers = .fail :: answers) : flush s f = { s with
    sinkAnswers := answers, sinkLog := s.sinkLog ++ [(f.cbuf, .fail)], seq := .idle, err := .sinkFail, einfo := 0 } := by
  simp [flush, h, State.raise]

end

/-- A turn of the block that finds a chunk offered is a flush, on the state without the event. -/
theorem step_of_offers {s s' : State} {f : InFlight} (hturn : BlocksTurn s s') (hs : s.seq = .stream f)
    (ho : Offers s f) : step s = .next (flush s' f) := by
  obtain ⟨hstep, rest, rfl⟩ := step_of_turn hturn
  rw [hstep, blockStep_of_offers (s := { s with inbox := rest }) hs ho]

/-- Settles O48: the NRZI step, the tone and the symbol's length written out. -/
theorem symbolStartTakesTheNextBit : Obligations.SymbolStartTakesTheNextBit := by
  intro s s' f b hturn hs hroom hj hT
  obtain ⟨hstep, rest, rfl⟩ := step_of_turn hturn
  rw [hstep, blockStep_of_bit (s := { s with inbox := rest }) hs hroom hj hT]
  rfl

/-- Settles O49: the phase advance written out. -/
theorem sampleStepAdvancesThenSamples : Obligations.SampleStepAdvancesThenSamples := by
  intro s s' f hturn hs hroom hj
  obtain ⟨hstep, rest, rfl⟩ := step_of_turn hturn
  rw [hstep, blockStep_of_sample (s := { s with inbox := rest }) hs hroom hj]
  rfl

/-- Settles O50: what is offered is flushed, and the answer decides. -/
theorem aFlushWaitsForTheSinksAnswer : Obligations.AFlushWaitsForTheSinksAnswer := by
  intro s s' f hturn hs ho
  have hstep := step_of_offers hturn hs ho
  obtain ⟨-, rest, rfl⟩ := step_of_turn hturn
  refine ⟨fun h => ?_, fun answers h => ?_, fun answers h => ⟨_, hstep, ?_⟩⟩
  · rw [hstep, flush_of_no_answer (s := { s with inbox := rest }) f h]
  · rw [hstep, flush_of_ok (s := { s with inbox := rest }) f h]
  · rw [flush_of_fail (s := { s with inbox := rest }) f h]
    exact ⟨rfl, rfl⟩

/-- Settles O51: the flush of a `fail`; the chunk is recorded as refused, so it is not delivered. -/
theorem aRefusedChunkAbortsTheTransmission : Obligations.ARefusedChunkAbortsTheTransmission := by
  intro s s' f answers hturn hs ho h
  have hstep := step_of_offers hturn hs ho
  obtain ⟨-, rest, rfl⟩ := step_of_turn hturn
  refine ⟨_, hstep, flush_of_fail (s := { s with inbox := rest }) f h, ?_⟩
  rw [flush_of_fail (s := { s with inbox := rest }) f h]
  simp [State.delivered]

/-- Settles O52: nothing else is enabled. -/
theorem theLastStepCompletes : Obligations.TheLastStepCompletes := by
  intro s s' f hturn hs hc hj hT
  obtain ⟨hstep, rest, rfl⟩ := step_of_turn hturn
  rw [hstep, blockStep_of_end (s := { s with inbox := rest }) hs hc hj hT]
  rfl

/-! ## Steps that find the block running, and steps that find it idle (R172) -/

/-- A host access that a running transmission takes no notice of: a dropped write or a read. -/
def Undisturbed (s t : State) : Prop :=
  ∃ rest o reads, t = { s with inbox := rest, overrun := o, reads := reads }

theorem undisturbed_of_turn {s s' : State} (h : BlocksTurn s s') : Undisturbed s s' := by
  obtain ⟨-, rest, rfl⟩ := step_of_turn h
  exact ⟨rest, s.overrun, s.reads, rfl⟩

/-- What a step of a running transmission can be, said once: a turn of the block, a reset, or a host access. -/
theorem step_cases_of_running {s t : State} {f : InFlight} (hs : s.seq = .stream f) (h : step s = .next t) :
    (∃ s', BlocksTurn s s' ∧ t = blockStep s') ∨
    (∃ rest, s.inbox = .reset :: rest ∧ t = resetEvent { s with inbox := rest }) ∨ Undisturbed s t := by
  have hb : s.busy = true := (State.busy_eq_true_iff s).2 ⟨f, hs⟩
  rcases step_cases h with ⟨hi, rfl⟩ | ⟨v, rest, hi, rfl⟩ | ⟨e, rest, hi, -, rfl⟩
  · exact .inl ⟨s, .inl ⟨hi, rfl⟩, rfl⟩
  · rw [State.issue_busy { s with inbox := rest } _ hb]
    exact .inr (.inr ⟨rest, true, s.reads, rfl⟩)
  · cases e with
    | regWrite n v =>
      rw [takeEvent_regWrite_busy { s with inbox := rest } n v hb]
      exact .inr (.inr ⟨rest, true, s.reads, rfl⟩)
    | pbufWrite i b =>
      rw [takeEvent_pbufWrite_busy { s with inbox := rest } i b hb]
      exact .inr (.inr ⟨rest, true, s.reads, rfl⟩)
    | regRead n => exact .inr (.inr ⟨rest, s.overrun, _, rfl⟩)
    | bufRead sp i => exact .inr (.inr ⟨rest, s.overrun, _, rfl⟩)
    | reset => exact .inr (.inl ⟨rest, hi, rfl⟩)
    | blockTurn => exact .inl ⟨_, .inr ⟨rest, hi, rfl⟩, rfl⟩

/-- No command offers a chunk, and the one that starts a stream is TRANSMIT, opcode 0x03. -/
theorem commandOf_of_idle {s : State} (hs : s.seq = .idle) (op : Byte) :
    (commandOf op s).sinkLog = s.sinkLog ∧
    ((commandOf op s).seq = .idle ∨ (op = 0x03 ∧ DescriptorOk s ∧ RatesOk s)) := by
  obtain ⟨m, n, heq⟩ := assemble_writes s
  rcases commandOf_cases op with ⟨-, ho⟩ | ⟨-, ho⟩ | ⟨hop, ho⟩ | ⟨-, ho⟩ | ⟨-, -, -, -, ho⟩ <;> rw [ho]
  · exact ⟨rfl, .inl hs⟩
  · rcases buildCommand_cases s with ⟨_, _, -, h⟩ | ⟨-, h⟩ <;> rw [h]
    · exact ⟨rfl, .inl rfl⟩
    · rw [heq]
      exact ⟨rfl, .inl hs⟩
  · rcases transmitCommand_accepts_or_raises s with ⟨hok, hrates, h⟩ | ⟨-, _, _, -, h⟩ <;> rw [h]
    · rw [heq]
      exact ⟨rfl, .inr ⟨hop, hok, hrates⟩⟩
    · exact ⟨rfl, .inl rfl⟩
  · exact ⟨rfl, .inl hs⟩
  · exact ⟨rfl, .inl rfl⟩

theorem State.writeReg_sinkLog (s : State) (r : Reg) (v : Nat) : (s.writeReg r v).sinkLog = s.sinkLog := by
  cases r <;> rfl

/-- No event but a command starts an idle block or offers a chunk. -/
theorem takeEvent_of_idle {s : State} (hs : s.seq = .idle) (e : Event) :
    (takeEvent e s).sinkLog = s.sinkLog ∧ (takeEvent e s).seq = .idle := by
  have hb : s.busy = false := (State.busy_eq_false_iff s).2 hs
  cases e with
  | regWrite n v =>
    rcases hr : regOfNumber n with _ | r
    · rw [takeEvent_regWrite_none s n v hb hr]
      exact ⟨rfl, hs⟩
    · rw [takeEvent_regWrite_idle s n v hb hr]
      exact ⟨s.writeReg_sinkLog r v, (s.writeReg_seq r v).trans hs⟩
  | pbufWrite i b =>
    rw [takeEvent_pbufWrite_idle s i b hb, State.writePbuf]
    split_ifs <;> exact ⟨rfl, hs⟩
  | regRead n => exact ⟨rfl, hs⟩
  | bufRead sp i => exact ⟨rfl, hs⟩
  | reset => exact ⟨rfl, rfl⟩
  | blockTurn =>
    rw [takeEvent, blockStep_idle hs]
    exact ⟨rfl, hs⟩

/-- What a step of an idle block can do, said once: it offers no chunk, and starts a stream by a valid TRANSMIT only. -/
theorem step_of_idle {s t : State} (hs : s.seq = .idle) (h : step s = .next t) :
    t.sinkLog = s.sinkLog ∧ (t.seq = .idle ∨ (CommandNext s 0x03 ∧ DescriptorOk s ∧ RatesOk s)) := by
  rcases step_cases h with ⟨-, rfl⟩ | ⟨v, rest, hi, rfl⟩ | ⟨e, rest, -, -, rfl⟩
  · rw [blockStep_idle hs]
    exact ⟨rfl, .inl hs⟩
  · rw [State.issue_idle { s with inbox := rest } _ ((State.busy_eq_false_iff s).2 hs)]
    obtain ⟨hlog, hseq⟩ :=
      commandOf_of_idle (s := State.clearCommandStatus { s with inbox := rest }) hs (BitVec.ofNat 8 v)
    exact ⟨hlog, hseq.imp_right fun ⟨hop, hvalid⟩ => ⟨⟨v, rest, hi, hop⟩, hvalid⟩⟩
  · obtain ⟨hlog, hseq⟩ := takeEvent_of_idle (s := { s with inbox := rest }) hs e
    exact ⟨hlog, .inl hseq⟩

/-! ## The output of a transmission (R160, R170, R179) -/

/-- What is delivered, what waits and what is to come make the same samples in `t`, at the position `g`, as in `s` at
`f`, with the same final phase and level. -/
def SameOutput (s : State) (f : InFlight) (t : State) (g : InFlight) : Prop :=
  t.delivered ++ g.cbuf ++ (t.remaining g).1 = s.delivered ++ f.cbuf ++ (s.remaining f).1 ∧
    (t.remaining g).2 = (s.remaining f).2 ∧ t.finalLevel g = s.finalLevel f

/-- In `t` all of the output of `s` at `f` is delivered, and the modulator is at its end. -/
def OutputDone (s : State) (f : InFlight) (t : State) : Prop :=
  t.delivered = s.delivered ++ f.cbuf ++ (s.remaining f).1 ∧ t.phase = (s.remaining f).2 ∧ t.level = s.finalLevel f

theorem SameOutput.trans {s t u : State} {f g k : InFlight} (h : SameOutput s f t g) (hu : SameOutput t g u k) :
    SameOutput s f u k := by
  obtain ⟨hsamples, hphase, hlevel⟩ := h
  obtain ⟨hsamples', hphase', hlevel'⟩ := hu
  exact ⟨hsamples'.trans hsamples, hphase'.trans hphase, hlevel'.trans hlevel⟩

theorem SameOutput.outputDone {s t u : State} {f g : InFlight} (h : SameOutput s f t g) (hu : OutputDone t g u) :
    OutputDone s f u := by
  obtain ⟨hsamples, hphase, hlevel⟩ := h
  obtain ⟨hsamples', hphase', hlevel'⟩ := hu
  exact ⟨hsamples'.trans hsamples, hphase'.trans hphase, hlevel'.trans hlevel⟩

theorem sameOutput_of_undisturbed {s t : State} (h : Undisturbed s t) (f : InFlight) : SameOutput s f t f := by
  obtain ⟨rest, o, reads, rfl⟩ := h
  have hrem := remaining_congr (s := s) (t := { s with inbox := rest, overrun := o, reads := reads })
    rfl rfl rfl rfl rfl rfl rfl f
  exact ⟨by rw [hrem]; rfl, by rw [hrem], rfl⟩

/-- A sample goes from what is to come to what waits. -/
theorem sameOutput_sampleStep (s : State) {f g : InFlight} (hj : 0 < f.j) (hg : (sampleStep s f).seq = .stream g) :
    SameOutput s f (sampleStep s f) g := by
  obtain rfl := Seq.stream.inj hg
  have hrem := remaining_sampleStep s f hj
  refine ⟨?_, by rw [hrem], rfl⟩
  rw [hrem]
  simp [State.delivered, sampleStep]

theorem sameOutput_symbolStart (s : State) {f g : InFlight} {b : Bool} (hj : f.j = 0) (hT : f.T[f.k]? = some b)
    (hg : (symbolStart s f b).seq = .stream g) : SameOutput s f (symbolStart s f b) g := by
  obtain ⟨hrem, hlevel⟩ := remaining_symbolStart s hj hT hg
  obtain rfl := Seq.stream.inj hg
  exact ⟨by rw [hrem]; rfl, by rw [hrem], hlevel.symm⟩

/-- An accepted chunk goes from what waits to what is delivered. -/
theorem sameOutput_flush {s : State} (f : InFlight) {answers : List SinkAnswer} (h : s.sinkAnswers = .ok :: answers) :
    SameOutput s f (flush s f) { f with cbuf := [] } := by
  obtain ⟨-, hdelivered, hrem, hlevel⟩ := flush_ok f h
  have hrem' : (flush s f).remaining { f with cbuf := [] } = s.remaining f := hrem _
  refine ⟨?_, by rw [hrem'], hlevel _⟩
  rw [hrem', hdelivered, List.append_nil]

theorem outputDone_complete (s : State) {f : InFlight} (hc : f.cbuf = []) (hj : f.j = 0) (hT : f.T[f.k]? = none) :
    OutputDone s f (complete s) := by
  obtain ⟨hrem, hlevel⟩ := remaining_end s hj hT
  refine ⟨?_, by rw [hrem]; rfl, by rw [hlevel]; rfl⟩
  rw [hrem, hc, List.append_nil, List.append_nil]
  rfl

/-- The stream stays and the position does not move back (R172). -/
def Forward (f g : InFlight) : Prop := g.T = f.T ∧ (g.k = f.k ∧ g.j ≤ f.j ∨ g.k = f.k + 1 ∧ f.k < f.T.length)

theorem Forward.refl (f : InFlight) : Forward f f := ⟨rfl, .inl ⟨rfl, le_rfl⟩⟩

/-- The block's own step: the transmission goes on or waits, with the output as it was, or it completes, or a refused
chunk aborts it. -/
theorem blockStep_goes_on_or_ends {s : State} {f : InFlight} (hs : s.seq = .stream f) :
    (∃ g, (blockStep s).seq = .stream g ∧ Forward f g ∧ SameOutput s f (blockStep s) g) ∨
    (f.cbuf = [] ∧ f.j = 0 ∧ f.T[f.k]? = none ∧ blockStep s = complete s) ∨
    (Offers s f ∧ ∃ answers, s.sinkAnswers = .fail :: answers ∧ blockStep s = flush s f) := by
  rcases blockStep_cases_of_running hs with ⟨ho, h⟩ | ⟨-, hj, h⟩ | ⟨hj, b, hT, h⟩ | hend
  · rcases flush_cases s f with ⟨-, hf⟩ | ⟨answers, ha, -⟩ | ⟨answers, ha, -⟩
    · rw [h, hf]
      exact .inl ⟨f, hs, .refl f, rfl, rfl, rfl⟩
    · rw [h]
      exact .inl ⟨_, (flush_ok f ha).1, .refl f, sameOutput_flush f ha⟩
    · exact .inr (.inr ⟨ho, answers, ha, h⟩)
  · rw [h]
    exact .inl ⟨_, rfl, ⟨rfl, .inl ⟨rfl, Nat.sub_le _ _⟩⟩, sameOutput_sampleStep s hj rfl⟩
  · rw [h]
    have hk : f.k < f.T.length := (List.getElem?_eq_some_iff.1 hT).1
    exact .inl ⟨_, rfl, ⟨rfl, .inr ⟨rfl, hk⟩⟩, sameOutput_symbolStart s hj hT rfl⟩
  · exact .inr (.inl hend)

/-- Settles O58: a turn of the block keeps the output, a host access leaves it, and a reset ends the transmission without
`DONE`. -/
theorem theOutputIsWhatTheStreamDetermines : Obligations.TheOutputIsWhatTheStreamDetermines := by
  intro s t f hs hd h
  change (∀ g, t.seq = .stream g → SameOutput s f t g) ∧ (t.seq = .idle → t.done = true → OutputDone s f t)
  rcases step_cases_of_running hs h with ⟨s', hturn, rfl⟩ | ⟨rest, -, rfl⟩ | hu
  · have hsame := sameOutput_of_undisturbed (undisturbed_of_turn hturn) f
    obtain ⟨-, rest, rfl⟩ := step_of_turn hturn
    rcases blockStep_goes_on_or_ends (s := { s with inbox := rest }) hs with
      ⟨g, hg, -, hout⟩ | ⟨hc, hj, hT, hb⟩ | ⟨-, answers, ha, hb⟩
    · refine ⟨fun g' hg' => ?_, fun hidle => (nomatch hg.symm.trans hidle)⟩
      obtain rfl := Seq.stream.inj (hg.symm.trans hg')
      exact hsame.trans hout
    · rw [hb]
      exact ⟨fun g hg => (nomatch hg), fun _ _ => hsame.outputDone (outputDone_complete _ hc hj hT)⟩
    · rw [hb, flush_of_fail f ha]
      exact ⟨fun g hg => (nomatch hg), fun _ hdone => (nomatch hd.symm.trans hdone)⟩
  · exact ⟨fun g hg => (nomatch hg), fun _ hdone => (nomatch hdone)⟩
  · have hsame := sameOutput_of_undisturbed hu f
    obtain ⟨rest, o, reads, rfl⟩ := hu
    refine ⟨fun g hg => ?_, fun hidle => (nomatch hs.symm.trans hidle)⟩
    obtain rfl := Seq.stream.inj (hs.symm.trans hg)
    exact hsame

/-! ## Transitions and chunks (R172, R180) -/

/-- Settles O56: an idle block starts by a valid TRANSMIT; a running one goes on, completes, or is aborted by a refused
chunk or a reset. -/
theorem theSequencerHasTheseTransitions : Obligations.TheSequencerHasTheseTransitions := by
  refine ⟨fun s t f hs h ht => ?_, fun s t f hs h ht => ?_, fun s t f g hs h ht => ?_⟩
  · rcases (step_of_idle hs h).2 with hidle | hstart
    · cases hidle.symm.trans ht
    · exact hstart
  · rcases step_cases_of_running hs h with ⟨s', hturn, rfl⟩ | ⟨rest, hi, -⟩ | ⟨rest, o, reads, rfl⟩
    · obtain ⟨-, rest, rfl⟩ := step_of_turn hturn
      rcases blockStep_goes_on_or_ends (s := { s with inbox := rest }) hs with
        ⟨g, hg, -⟩ | ⟨hc, hj, hT, hb⟩ | ⟨ho, answers, ha, hb⟩
      · cases hg.symm.trans ht
      · rw [hb]
        exact .inr (.inl ⟨⟨_, hturn⟩, hc, hj, List.getElem?_eq_none_iff.1 hT, rfl, rfl⟩)
      · rw [hb, flush_of_fail f ha]
        exact .inr (.inr ⟨⟨_, hturn⟩, ho, ⟨answers, ha⟩, rfl⟩)
    · exact .inl ⟨rest, hi⟩
    · cases hs.symm.trans ht
  · change Forward f g
    rcases step_cases_of_running hs h with ⟨s', hturn, rfl⟩ | ⟨rest, -, rfl⟩ | ⟨rest, o, reads, rfl⟩
    · obtain ⟨-, rest, rfl⟩ := step_of_turn hturn
      rcases blockStep_goes_on_or_ends (s := { s with inbox := rest }) hs with
        ⟨g', hg', hforward, -⟩ | ⟨-, -, -, hb⟩ | ⟨-, answers, ha, hb⟩
      · obtain rfl := Seq.stream.inj (hg'.symm.trans ht)
        exact hforward
      · rw [hb] at ht
        cases ht
      · rw [hb, flush_of_fail f ha] at ht
        cases ht
    · cases ht
    · obtain rfl := Seq.stream.inj (hs.symm.trans ht)
      exact .refl f

/-- A turn of the block answers no chunk, or one it offers. -/
theorem blockStep_sinkLog {s : State} {f : InFlight} (hs : s.seq = .stream f) :
    (blockStep s).sinkLog = s.sinkLog ∨
    (Offers s f ∧ ∃ answer, (blockStep s).sinkLog = s.sinkLog ++ [(f.cbuf, answer)]) := by
  rcases blockStep_cases_of_running hs with ⟨ho, h⟩ | ⟨-, -, h⟩ | ⟨-, _, -, h⟩ | ⟨-, -, -, h⟩ <;> rw [h]
  · rcases flush_cases s f with ⟨-, hf⟩ | ⟨_, -, hf⟩ | ⟨_, -, hf⟩ <;> rw [hf]
    · exact .inl rfl
    · exact .inr ⟨ho, .ok, rfl⟩
    · exact .inr ⟨ho, .fail, rfl⟩
  · exact .inl rfl
  · exact .inl rfl
  · exact .inl rfl

/-- A chunk that is offered is not empty, and is the last where it is not full (R180). -/
theorem size_of_offers {s : State} {f : InFlight} (ho : Offers s f) (hk : f.k ≤ f.T.length) :
    1 ≤ f.cbuf.length ∧ (f.cbuf.length < s.chunkMax → f.j = 0 ∧ f.k = f.T.length) := by
  rcases ho with hfull | ⟨hj, hT, hne⟩
  · have hpos : 1 ≤ s.chunkMax := Nat.succ_le_succ (Nat.zero_le _)
    exact ⟨hfull ▸ hpos, fun hlt => absurd hfull hlt.ne⟩
  · exact ⟨hne, fun _ => ⟨hj, hk.antisymm hT⟩⟩

/-- Settles O57: only a turn of the block answers a chunk, and the invariant bounds the position and the chunk buffer. -/
theorem chunksAreFullButTheLast : Obligations.ChunksAreFullButTheLast := by
  intro s t hinv h
  rcases hs : s.seq with _ | f
  · exact .inl (step_of_idle hs h).1
  · obtain ⟨-, -, -, -, -, hrun⟩ := hinv
    obtain ⟨-, -, -, -, hk, hroom, -⟩ := hrun f hs
    rcases step_cases_of_running hs h with ⟨s', hturn, rfl⟩ | ⟨rest, -, rfl⟩ | ⟨rest, o, reads, rfl⟩
    · obtain ⟨-, rest, rfl⟩ := step_of_turn hturn
      rcases blockStep_sinkLog (s := { s with inbox := rest }) hs with hlog | ⟨ho, answer, hlog⟩
      · exact .inl hlog
      · obtain ⟨hpos, hlast⟩ := size_of_offers (s := s) ho hk
        exact .inr ⟨f, answer, rfl, hlog, hpos, hroom, hlast⟩
    · exact .inl rfl
    · exact .inl rfl

/-! ## Completion with a sink that accepts (R179, R246) -/

/-- The chunks a transmission still has to offer, with the one that is being filled: `ceil(samples / CHUNK_MAX)`. -/
def State.chunksToCome (s : State) (f : InFlight) : Nat :=
  (f.cbuf.length + (s.remaining f).1.length + s.chunkMaxLess1) / s.chunkMax

/-- The steps of a transmission before the one that completes it: one for each sample, symbol and chunk to come. -/
def State.stepsToCome (s : State) (f : InFlight) : Nat :=
  (s.remaining f).1.length + (f.T.length - f.k) + s.chunksToCome f

/-- A transmission left to itself, with an `ok` waiting for each chunk to come, then the answers `more`. -/
structure Accepting (s : State) (f : InFlight) (more : List SinkAnswer) : Prop where
  seq : s.seq = .stream f
  inbox : s.inbox = []
  room : f.cbuf.length ≤ s.chunkMax
  answers : s.sinkAnswers = List.replicate (s.chunksToCome f) .ok ++ more

/-- From `s` at `f` the transmission goes on, one step nearer to its end, in `t` at `g`. -/
structure Advances (s : State) (f : InFlight) (t : State) (g : InFlight) (more : List SinkAnswer) : Prop where
  accepting : Accepting t g more
  steps : s.stepsToCome f = t.stepsToCome g + 1
  output : SameOutput s f t g
  err : t.err = s.err

/-- The chunks to come are counted from the samples that wait or are to come. -/
theorem chunksToCome_congr {s t : State} {f g : InFlight} (hmax : t.chunkMaxLess1 = s.chunkMaxLess1)
    (h : g.cbuf.length + (t.remaining g).1.length = f.cbuf.length + (s.remaining f).1.length) :
    t.chunksToCome g = s.chunksToCome f := by
  simp only [State.chunksToCome, State.chunkMax, hmax, h]

/-- A flush takes one off the chunks to come. -/
theorem chunksToCome_of_offers {s : State} {f : InFlight} (hroom : f.cbuf.length ≤ s.chunkMax) (ho : Offers s f) :
    s.chunksToCome f = s.chunksToCome { f with cbuf := [] } + 1 := by
  have hM : s.chunkMax = s.chunkMaxLess1 + 1 := rfl
  change (f.cbuf.length + (s.remaining f).1.length + s.chunkMaxLess1) / s.chunkMax =
    (0 + (s.remaining f).1.length + s.chunkMaxLess1) / s.chunkMax + 1
  rcases ho with hfull | ⟨hj, hT, hne⟩
  · rw [hfull, ← Nat.add_div_right _ (by omega)]
    congr 1
    omega
  · have hrem : (s.remaining f).1.length = 0 := by rw [(remaining_end s hj (List.getElem?_eq_none hT)).1]; rfl
    have hlast : f.cbuf.length + 0 + s.chunkMaxLess1 = f.cbuf.length - 1 + s.chunkMax := by omega
    rw [hrem, hlast, Nat.add_div_right _ (by omega), Nat.div_eq_of_lt (by omega), Nat.div_eq_of_lt (by omega)]

namespace Accepting

variable {s : State} {f : InFlight} {more : List SinkAnswer} (h : Accepting s f more)
include h

theorem advances_flush (ho : Offers s f) : Advances s f (flush s f) { f with cbuf := [] } more := by
  have hchunks := chunksToCome_of_offers h.room ho
  have ha := h.answers
  rw [hchunks, List.replicate_succ, List.cons_append] at ha
  obtain ⟨hseq, -, hrem, -⟩ := flush_ok f ha
  have hflush := flush_of_ok f ha
  have hrem' : (flush s f).remaining { f with cbuf := [] } = s.remaining f := hrem _
  have hchunks' : (flush s f).chunksToCome { f with cbuf := [] } = s.chunksToCome { f with cbuf := [] } :=
    chunksToCome_congr (by rw [hflush]) (by rw [hrem']; rfl)
  refine ⟨⟨hseq, ?_, Nat.zero_le _, ?_⟩, ?_, sameOutput_flush f ha, ?_⟩
  · rw [hflush]; exact h.inbox
  · rw [hchunks', hflush]
  · rw [State.stepsToCome, State.stepsToCome, hrem', hchunks', hchunks]
    rfl
  · rw [hflush]

theorem advances_sampleStep (hroom : f.cbuf.length ≠ s.chunkMax) (hj : 0 < f.j) :
    ∃ g, Advances s f (sampleStep s f) g more := by
  set x := sample s.ampl (phaseAdvance s.phase f.freq.toNat s.sampleRate.toNat)
  set g : InFlight := { f with cbuf := f.cbuf ++ [x], j := f.j - 1 }
  have hrem : (s.remaining f).1.length = ((sampleStep s f).remaining g).1.length + 1 := by
    rw [remaining_sampleStep s f hj]
    rfl
  have hcbuf : g.cbuf.length = f.cbuf.length + 1 := by simp [g]
  have hchunks : (sampleStep s f).chunksToCome g = s.chunksToCome f := chunksToCome_congr rfl (by omega)
  have hlen := h.room
  refine ⟨g, ⟨rfl, h.inbox, ?_, ?_⟩, ?_, sameOutput_sampleStep s hj rfl, rfl⟩
  · change g.cbuf.length ≤ s.chunkMax
    omega
  · rw [hchunks]
    exact h.answers
  · rw [State.stepsToCome, State.stepsToCome, hchunks, hrem]
    change _ = _ + (f.T.length - f.k) + _ + 1
    omega

theorem advances_symbolStart {b : Bool} (hj : f.j = 0) (hT : f.T[f.k]? = some b) :
    ∃ g, Advances s f (symbolStart s f b) g more := by
  obtain ⟨g, hg⟩ : ∃ g, (symbolStart s f b).seq = .stream g := ⟨_, rfl⟩
  have hrem := (remaining_symbolStart s hj hT hg).1
  have hk : f.k < f.T.length := (List.getElem?_eq_some_iff.1 hT).1
  have hout := sameOutput_symbolStart s hj hT hg
  have hchunks : (symbolStart s f b).chunksToCome g = s.chunksToCome f := by
    obtain rfl := Seq.stream.inj hg
    exact chunksToCome_congr rfl (by rw [hrem])
  refine ⟨g, ⟨hg, h.inbox, ?_, by rw [hchunks]; exact h.answers⟩, ?_, hout, rfl⟩
  · obtain rfl := Seq.stream.inj hg
    exact h.room
  · rw [State.stepsToCome, State.stepsToCome, hchunks, hrem]
    obtain rfl := Seq.stream.inj hg
    change _ = _ + (f.T.length - (f.k + 1)) + _ + 1
    omega

/-- The step of a transmission that is accepted: it goes on, or it is at its end and completes. -/
theorem step : (∃ g, Advances s f (blockStep s) g more) ∨
    (s.stepsToCome f = 0 ∧ blockStep s = complete s ∧ s.sinkAnswers = more ∧ OutputDone s f (complete s)) := by
  rcases blockStep_cases_of_running h.seq with ⟨ho, hb⟩ | ⟨hroom, hj, hb⟩ | ⟨hj, b, hT, hb⟩ | ⟨hc, hj, hT, hb⟩
  · rw [hb]
    exact .inl ⟨_, h.advances_flush ho⟩
  · rw [hb]
    exact .inl (h.advances_sampleStep hroom hj)
  · rw [hb]
    exact .inl (h.advances_symbolStart hj hT)
  · have hrem : (s.remaining f).1 = [] := by rw [(remaining_end s hj hT).1]
    have hk : f.T.length - f.k = 0 := Nat.sub_eq_zero_of_le (List.getElem?_eq_none_iff.1 hT)
    have hchunks : s.chunksToCome f = 0 := by
      rw [State.chunksToCome, hc, hrem]
      exact Nat.div_eq_of_lt (by simp [State.chunkMax])
    have hanswers := h.answers
    rw [hchunks] at hanswers
    exact .inr ⟨by rw [State.stepsToCome, hrem, hk, hchunks]; rfl, hb, hanswers, outputDone_complete s hc hj hT⟩

/-- By induction on the steps to come. -/
theorem run : ∃ t, Host.Core.run Sys2Proof.core (s.stepsToCome f + 1) s = .next t ∧ t.seq = .idle ∧ t.done = true ∧
    t.err = s.err ∧ t.sinkAnswers = more ∧ OutputDone s f t := by
  induction hn : s.stepsToCome f generalizing s f with
  | zero =>
    rw [run_succ (M := Sys2Proof.core) 0 (step_of_nil h.inbox)]
    rcases h.step with ⟨g, hadv⟩ | ⟨-, hb, hanswers, hout⟩
    · cases hn.symm.trans hadv.steps
    · rw [hb]
      exact ⟨complete s, rfl, rfl, rfl, rfl, hanswers, hout⟩
  | succ n ih =>
    rw [run_succ (M := Sys2Proof.core) _ (step_of_nil h.inbox)]
    rcases h.step with ⟨g, hadv⟩ | ⟨hzero, -⟩
    · obtain ⟨t, hrun, hidle, hdone, herr, hanswers, hout⟩ := ih hadv.accepting (by have := hadv.steps; omega)
      exact ⟨t, hrun, hidle, hdone, herr.trans hadv.err, hanswers, hadv.output.outputDone hout⟩
    · cases hn.symm.trans hzero

end Accepting

/-- Settles O59: its hypotheses are those of `Accepting`. -/
theorem aTransmissionCompletesWhenTheSinkAccepts : Obligations.ATransmissionCompletesWhenTheSinkAccepts := by
  rintro s f n more hs hi hroom rfl ha
  exact Accepting.run ⟨hs, hi, hroom, ha⟩

end Sys2Proof.Machine
end

section
/-! SUPPORT. The statements about errors (60_exceptions.md): nothing stops the machine, `OVERRUN` is sticky, and
OUT_OF_MEMORY is never recorded (R204, R205, R211). -/

namespace Sys2Proof.Machine

/-! ## Nothing stops the machine (R205) -/

/-- A step is the block's own, a command or another event, and each answers a next state. -/
theorem step_eq_next (s : State) : ∃ t, step s = .next t := by
  rcases hi : s.inbox with _ | ⟨e, rest⟩
  · exact ⟨_, step_of_nil hi⟩
  · rcases ho : opcodeWritten e with _ | op
    · exact ⟨_, step_of_event hi ho⟩
    · obtain ⟨v, rfl, -⟩ := (opcodeWritten_eq_some_iff e op).1 ho
      exact ⟨_, (step_of_command hi).trans (exec_eq _ _)⟩

/-- Settles O5: every arm of `exec` issues its operation, and so every step answers. -/
theorem nothingStopsTheMachine : Obligations.NothingStopsTheMachine :=
  ⟨fun i s => ⟨_, exec_eq i s⟩, step_eq_next⟩

/-! ## How `OVERRUN` and `ERR` move (R204, R211) -/

/-- From `s` to `t` a set `OVERRUN` stays set, and `ERR` is left or takes another code than OUT_OF_MEMORY. -/
structure StatusMoves (s t : State) : Prop where
  overrun : s.overrun = true → t.overrun = true
  err : t.err = s.err ∨ t.err ≠ .outOfMemory

namespace StatusMoves

/-- An operation that writes neither field. -/
theorem of_eq {s t : State} (ho : t.overrun = s.overrun) (he : t.err = s.err) : StatusMoves s t :=
  ⟨ho.trans, .inl he⟩

theorem trans {s t u : State} (h : StatusMoves s t) (h' : StatusMoves t u) : StatusMoves s u :=
  ⟨h'.overrun ∘ h.overrun, h'.err.elim (fun he => h.err.imp he.trans (he ▸ ·)) .inr⟩

theorem takenOff (s : State) (rest : List Event) : StatusMoves s { s with inbox := rest } := .of_eq rfl rfl

theorem markDone (s : State) : StatusMoves s s.markDone := .of_eq rfl rfl

theorem markOverrun (s : State) : StatusMoves s s.markOverrun := ⟨fun _ => rfl, .inl rfl⟩

theorem clearCommandStatus (s : State) : StatusMoves s s.clearCommandStatus := ⟨id, .inr (by simp)⟩

/-- What is raised is an error of R201's list, which leaves OUT_OF_MEMORY out. -/
theorem raise (s : State) {e : ErrorCode} {n : BitVec 3} (h : ErrorLegal e n) : StatusMoves s (s.raise e n) :=
  ⟨id, .inr h.1⟩

/-! ### Commands -/

theorem assemble (s : State) : StatusMoves s (assemble s) := by
  rw [assemble_eq]
  exact .of_eq rfl rfl

theorem startStream (s : State) : StatusMoves s (startStream s) := .of_eq rfl rfl

theorem buildCommand (s : State) : StatusMoves s (buildCommand s) := by
  rcases buildCommand_cases s with ⟨e, n, hv, h⟩ | ⟨-, h⟩ <;> rw [h]
  · exact .raise s (errorLegal_of_validate hv)
  · exact (assemble s).trans (.markDone _)

theorem transmitCommand (s : State) : StatusMoves s (transmitCommand s) := by
  rcases transmitCommand_cases s with ⟨e, n, hv, h⟩ | ⟨e, n, -, hc, h⟩ | ⟨-, -, h⟩ <;> rw [h]
  · exact .raise s (errorLegal_of_validate hv)
  · exact .raise s (errorLegal_of_configCheck hc)
  · exact (assemble s).trans (.startStream _)

theorem commandOf (op : Byte) (s : State) : StatusMoves s (commandOf op s) := by
  rcases commandOf_cases op with ⟨-, h⟩ | ⟨-, h⟩ | ⟨-, h⟩ | ⟨-, h⟩ | ⟨-, -, -, -, h⟩ <;> rw [h]
  · exact .of_eq rfl rfl
  · exact .buildCommand s
  · exact .transmitCommand s
  · exact .of_eq rfl rfl
  · exact .raise s errorLegal_badCmd

/-- A write of `CMD`, run on the cleared status or dropped (R48, R61). -/
theorem issue (s : State) (op : Byte) : StatusMoves s (s.issue (Machine.commandOf op)) := by
  cases hb : s.busy
  · rw [State.issue_idle _ _ hb]
    exact (clearCommandStatus s).trans (.commandOf op _)
  · rw [State.issue_busy _ _ hb]
    exact .markOverrun s

/-! ### The block's own step -/

theorem flush (s : State) (f : InFlight) : StatusMoves s (flush s f) := by
  rcases flush_cases s f with ⟨-, h⟩ | ⟨_, -, h⟩ | ⟨_, -, h⟩ <;> rw [h]
  · exact .of_eq rfl rfl
  · exact .of_eq rfl rfl
  · exact ⟨id, .inr errorLegal_sinkFail.1⟩

theorem blockStep (s : State) : StatusMoves s (blockStep s) := by
  rcases hs : s.seq with _ | f
  · rw [blockStep_idle hs]
    exact .of_eq rfl rfl
  · rcases blockStep_cases hs with ⟨-, h⟩ | ⟨-, -, h⟩ | ⟨-, -, _, -, h⟩ | ⟨-, -, -, -, h⟩ | ⟨-, -, -, h⟩ <;> rw [h]
    · exact .flush s f
    · exact .of_eq rfl rfl
    · exact .of_eq rfl rfl
    · exact .flush s f
    · exact .of_eq rfl rfl

/-! ### Events -/

theorem writeReg (s : State) (r : Reg) (v : Nat) : StatusMoves s (s.writeReg r v) := by
  cases r <;> exact .of_eq rfl rfl

theorem writePbuf (s : State) (i : Nat) (b : Byte) : StatusMoves s (s.writePbuf i b) := by
  unfold State.writePbuf
  split <;> exact .of_eq rfl rfl

theorem hostRegWrite (s : State) (n v : Nat) : StatusMoves s (takeEvent (.regWrite n v) s) := by
  cases hb : s.busy
  · rcases hr : regOfNumber n with _ | r
    · rw [takeEvent_regWrite_none s n v hb hr]
      exact .of_eq rfl rfl
    · rw [takeEvent_regWrite_idle s n v hb hr]
      exact .writeReg s r v
  · rw [takeEvent_regWrite_busy s n v hb]
    exact .markOverrun s

theorem hostPbufWrite (s : State) (i : Nat) (b : Byte) : StatusMoves s (takeEvent (.pbufWrite i b) s) := by
  cases hb : s.busy
  · rw [takeEvent_pbufWrite_idle s i b hb]
    exact .writePbuf s i b
  · rw [takeEvent_pbufWrite_busy s i b hb]
    exact .markOverrun s

theorem takeEvent (s : State) {e : Event} (he : e ≠ .reset) : StatusMoves s (takeEvent e s) := by
  cases e with
  | regWrite n v => exact .hostRegWrite s n v
  | regRead n => exact .of_eq rfl rfl
  | pbufWrite i b => exact .hostPbufWrite s i b
  | bufRead sp i => exact .of_eq rfl rfl
  | reset => exact absurd rfl he
  | blockTurn => exact .blockStep s

end StatusMoves

/-- What a step can do to `OVERRUN` and `ERR`, said once: a reset event clears both, every other step moves them as
`StatusMoves` allows. -/
theorem step_status {s t : State} (h : step s = .next t) :
    ((∃ rest, s.inbox = .reset :: rest) ∧ t.overrun = false ∧ t.err = .none) ∨ StatusMoves s t := by
  rcases step_cases h with ⟨-, rfl⟩ | ⟨v, rest, -, rfl⟩ | ⟨e, rest, hi, -, rfl⟩
  · exact .inr (.blockStep s)
  · exact .inr ((StatusMoves.takenOff s rest).trans (.issue { s with inbox := rest } _))
  · by_cases he : e = .reset
    · subst he
      exact .inl ⟨⟨rest, hi⟩, rfl, rfl⟩
    · exact .inr ((StatusMoves.takenOff s rest).trans (.takeEvent { s with inbox := rest } he))

/-- Settles O17: of all steps the reset event alone clears `OVERRUN`. -/
theorem overrunIsStickyUntilReset : Obligations.OverrunIsStickyUntilReset := by
  intro s t hset h hreset
  rcases step_status h with ⟨⟨rest, hi⟩, -⟩ | hmoves
  · exact absurd hi (hreset rest)
  · exact hmoves.overrun hset

/-- Settles O18: a reset event records no error, and no other step records this one. -/
theorem outOfMemoryIsNeverRecorded : Obligations.OutOfMemoryIsNeverRecorded := by
  intro s t hs h
  rcases step_status h with ⟨-, -, hnone⟩ | hmoves
  · rw [hnone]
    decide
  · exact hmoves.err.elim (fun hkept => hkept ▸ hs) id

end Sys2Proof.Machine
end

section
/-! SUPPORT. The statements about reset (70_reset_and_hazards.md): the values of every register at power-up and after a
reset event (R230, R231), and the invariant at power-up. -/

namespace Sys2Proof.Machine

/-! ## Reset values (R230, the reset column of R46) -/

/-- The reset column of R46. -/
def Reg.resetValue : Reg → DWord
  | .cmd => 0
  | .status => 0
  | .cfgSampleRate => 48000
  | .cfgBitRate => 1200
  | .cfgMark => 1200
  | .cfgSpace => 2200
  | .cfgPreamble => 25
  | .cfgRest => 5
  | .cfgAmpl => 32767
  | .addrDst => 0
  | .addrSrc => 0
  | .addrPath1 => 0
  | .addrPath2 => 0
  | .npath => 0
  | .plen => 0
  | .flen => 0
  | .b91Value => 0
  | .b91Width => 0

theorem State.readReg_reset (r : Reg) : State.reset.readReg r = r.resetValue := by
  cases r <;> rfl

/-- A reset event leaves the registers as power-up does: what it keeps is outside the block (R231). -/
theorem State.readReg_resetEvent (s : State) (r : Reg) : (resetEvent s).readReg r = State.reset.readReg r := by
  cases r <;> rfl

/-- The block is idle, the modulator is at its start, and every register reads its reset value. -/
structure HoldsResetValues (t : State) : Prop where
  seq : t.seq = .idle
  phase : t.phase = 0
  level : t.level = true
  readReg : ∀ r, t.readReg r = r.resetValue

theorem holdsResetValues_reset : HoldsResetValues State.reset :=
  ⟨rfl, rfl, rfl, State.readReg_reset⟩

theorem holdsResetValues_resetEvent (s : State) : HoldsResetValues (resetEvent s) :=
  ⟨rfl, rfl, rfl, fun r => (s.readReg_resetEvent r).trans (State.readReg_reset r)⟩

/-! ## The reset event (R231) -/

/-- A reset event, as a step: whatever the block was doing is not looked at. -/
theorem step_of_reset {s : State} {rest : List Event} (hi : s.inbox = .reset :: rest) :
    step s = .next (resetEvent { s with inbox := rest }) :=
  step_of_event hi rfl

theorem holdsResetValues_of_step_reset {s t : State} {rest : List Event} (hi : s.inbox = .reset :: rest)
    (h : step s = .next t) : HoldsResetValues t := by
  rw [step_of_reset hi] at h
  cases h
  exact holdsResetValues_resetEvent _

/-- Settles O7: power-up and the reset event both hold the reset values, and the event keeps what is outside the block. -/
theorem resetValuesAndResetEvent : Obligations.ResetValuesAndResetEvent := by
  refine ⟨fun t ht => ?_, fun s rest hi => ⟨_, step_of_reset hi, rfl, rfl, rfl, rfl⟩⟩
  have hreset : HoldsResetValues t := by
    rcases ht with rfl | ⟨s, rest, hi, hstep⟩
    · exact holdsResetValues_reset
    · exact holdsResetValues_of_step_reset hi hstep
  obtain ⟨hseq, hphase, hlevel, hreg⟩ := hreset
  exact ⟨hseq, hphase, hlevel, hreg .cmd, hreg .status, hreg .cfgSampleRate, hreg .cfgBitRate, hreg .cfgMark,
    hreg .cfgSpace, hreg .cfgPreamble, hreg .cfgRest, hreg .cfgAmpl, hreg .addrDst, hreg .addrSrc, hreg .addrPath1,
    hreg .addrPath2, hreg .npath, hreg .plen, hreg .flen, hreg .b91Value, hreg .b91Width⟩

/-! ## The invariant at power-up -/

/-- Settles O8: the buffers list nothing, no command has an outcome yet, there is no frame and no transmission. -/
theorem resetMeetsTheInvariant : Obligations.ResetMeetsTheInvariant := by
  have hbuf : BuffersCanonical State.reset := ⟨rfl, rfl, rfl⟩
  have hphase : PhaseReduced State.reset := ⟨le_refl (0 : ℚ), one_pos⟩
  have hbits : HardwiredBitsZero State.reset := ⟨rfl, rfl⟩
  have hstatus : StatusLegal State.reset := statusLegal_of_done rfl rfl rfl
  have hframe : FrameChecked State.reset := .inl rfl
  exact ⟨hbuf, hphase, hbits, hstatus, hframe, transmissionConsistent_of_idle rfl⟩

end Sys2Proof.Machine
end

section
/-! SUPPORT. The statements about the NRZI line encoder (44_nrzi.md): each level and the final one (R140, R141), and
decoding as the inverse of encoding (R144). -/

namespace Sys2Proof.Machine

/-! ## The encoder, bit by bit (R141) -/

@[simp] theorem nrzi_nil (start : Bool) : nrzi [] start = ([], start) := rfl

@[simp] theorem nrzi_cons_levels (b : Bool) (l : List Bool) (start : Bool) :
    (nrzi (b :: l) start).1 = nrziStep start b :: (nrzi l (nrziStep start b)).1 := rfl

@[simp] theorem nrzi_cons_final (b : Bool) (l : List Bool) (start : Bool) :
    (nrzi (b :: l) start).2 = (nrzi l (nrziStep start b)).2 := rfl

@[simp] theorem nrziStep_true (level : Bool) : nrziStep level true = level := rfl

@[simp] theorem nrziStep_false (level : Bool) : nrziStep level false = !level := rfl

@[simp] theorem nrzi_length (l : List Bool) (start : Bool) : (nrzi l start).1.length = l.length := by
  induction l generalizing start with
  | nil => rfl
  | cons b l ih => simp [ih]

/-- The levels with the starting one put before them: the entry at `i` is the level before bit `i`, and NRZI's step takes
it to the level of bit `i`. -/
theorem nrzi_getElem?_of_before {l : List Bool} {start b before : Bool} {i : Nat} (hb : l[i]? = some b)
    (hbefore : (start :: (nrzi l start).1)[i]? = some before) :
    (nrzi l start).1[i]? = some (nrziStep before b) := by
  induction l generalizing start i with
  | nil => simp at hb
  | cons c l ih =>
    cases i with
    | zero =>
      obtain rfl : c = b := Option.some.inj hb
      obtain rfl : start = before := Option.some.inj hbefore
      rfl
    | succ i => exact ih hb hbefore

/-! ## The final level: the parity of the 0s (R141) -/

/-- One more inversion changes the parity of how many there were. -/
theorem decide_add_one_mod_two (n : Nat) : decide ((n + 1) % 2 = 1) = !decide (n % 2 = 1) := by
  rw [← decide_not, decide_eq_decide]
  omega

theorem nrzi_final (l : List Bool) (start : Bool) :
    (nrzi l start).2 = (start ^^ decide ((l.filter fun b => !b).length % 2 = 1)) := by
  induction l generalizing start with
  | nil => simp
  | cons b l ih =>
    cases b with
    | true => exact ih start
    | false => simp [ih, decide_add_one_mod_two]

/-- Settles O37: the length, the parity of the 0s, and the step from each level to the next. -/
theorem nrziInvertsOnceForEachZero : Obligations.NrziInvertsOnceForEachZero := by
  refine fun l start => ⟨nrzi_length l start, nrzi_final l start, fun i b hb before hbefore => ?_⟩
  exact nrzi_getElem?_of_before hb (List.getElem?_cons.trans hbefore)

/-! ## Decoding (R144) -/

/-- The step keeps the level exactly when the bit is 1, which is what decoding asks. -/
theorem nrziStep_beq (level b : Bool) : (nrziStep level b == level) = b := by
  cases b <;> simp

/-- Settles O38: decoding compares each level with the one its step started from. -/
theorem nrziDecodingInvertsEncoding : Obligations.NrziDecodingInvertsEncoding := by
  intro l
  induction l with
  | nil => exact fun _ => rfl
  | cons b l ih =>
    intro start
    rw [nrzi_cons_levels, nrziDecode, nrziStep_beq, ih]

end Sys2Proof.Machine
end
